-- ==== Sys2Proof/Word.lean ====
section
/-! DEFINITION. The word types of the block and their plainest constants (00_scope.md R9, R10;
30_encoding.md R93, R97, R99; 10_state.md R32). Bit 0 of every word is the least significant bit. -/

namespace Sys2Proof

/-- A logic level or a one-bit register: `true` is 1 (high), `false` is 0 (low) (R10). -/
abbrev Line := Bool

/-- The command word `CW = {rst, tick_lo, tick_hi, moving_n, pulse}` of a cycle (R93). -/
abbrev CommandWord := BitVec 5

/-- The slot command `SC = {push, take, push_digit[3:0]}` of a cycle (R97). -/
abbrev SlotCommand := BitVec 6

/-- A 4-bit digit code: 0 to 9 are the decimal digits, 10 to 14 are reserved, 15 is the empty
sentinel (R99). -/
abbrev Digit := BitVec 4

/-- The two sticky fault bits, `fault[1] fault[0]` (R32). -/
abbrev FaultBits := BitVec 2

/-- The payload of an empty slot, and the result of a take that finds it empty (R22, R133). -/
def emptyDigit : Digit := 15#4

end Sys2Proof
end

