-- ==== Sys2Proof/Syntax.lean ====
section
/-! DEFINITION. The operations of spec/opcode_table.json, one constructor of `Instr` per row in the
table's families (00_scope.md R12), the words that carry them (30_encoding.md R93, R97) and the
parts that a poll and a sample tick select among (R95, R96). -/

namespace Sys2Proof

/-- The 22 operations. `m` is the level of `moving_n`, `p` the level of `pulse`, `d` the 4-bit
`push_digit` (30_encoding.md R102). Bits a row ignores are no operands. -/
inductive Instr where
  /-- `CYC.RESET` (43_core_cycle.md R221). -/
  | cycReset
  /-- `CYC.NOP` (R222). -/
  | cycNop
  /-- `CYC.DEC m, p` (R223). -/
  | cycDec (m p : Line)
  /-- `CYC.SYN` (R225). -/
  | cycSyn
  /-- `CYC.BOTH m, p` (R224). -/
  | cycBoth (m p : Line)
  /-- `DEC.TICK m, p` (41_decoder.md R150). -/
  | decTick (m p : Line)
  /-- `DEC.SAMPLE m, p` (R151). -/
  | decSample (m p : Line)
  /-- `DEC.REST.IDLE` (R155). -/
  | decRestIdle
  /-- `DEC.REST.EMIT` (R153). -/
  | decRestEmit
  /-- `DEC.REST.DISCARD` (R154). -/
  | decRestDiscard
  /-- `DEC.MOVE.COUNT` (R156). -/
  | decMoveCount
  /-- `DEC.MOVE.HOLD` (R157). -/
  | decMoveHold
  /-- `SYN.TICK` (42_synth.md R180). -/
  | synTick
  /-- `SYN.FINISH` (R182). -/
  | synFinish
  /-- `SYN.GEN` (R183). -/
  | synGen
  /-- `SYN.START` (R186). -/
  | synStart
  /-- `SYN.NOP` (R187). -/
  | synNop
  /-- `SLOT.HOLD` (40_slot.md R135). -/
  | slotHold
  /-- `SLOT.PUSH d` (R132). -/
  | slotPush (d : Digit)
  /-- `SLOT.TAKE` (R133). -/
  | slotTake
  /-- `SLOT.PUSHTAKE d` (R134). -/
  | slotPushTake (d : Digit)
  /-- `SLOT.HASPENDING` (R131). -/
  | slotHasPending
  deriving DecidableEq, Repr

/-- The four families an operation's name begins with (00_scope.md R12). -/
inductive Family where
  | cyc
  | dec
  | syn
  | slot
  deriving DecidableEq, Repr

/-- One input word of the model: what the environment drives in one cycle. -/
inductive InputWord where
  /-- The five input bits of the assembled block's ports (R93). -/
  | ports (cw : CommandWord)
  /-- The six command bits of the slot taken alone (R92, R97). -/
  | slot (sc : SlotCommand)
  /-- No command bits: the output `pending` is read (R97, R131). -/
  | outputRead
  deriving DecidableEq, Repr

/-- Why a row of bits is no input word. -/
inductive DecodeError where
  /-- A bit is set above the six bits of the longest word (30_encoding.md R105). -/
  | noSuchWord
  deriving DecidableEq, Repr

/-- The five parts of a poll of which it performs exactly one after sampling (R95). -/
inductive PollPart where
  | restIdle
  | restEmit
  | restDiscard
  | moveCount
  | moveHold
  deriving DecidableEq, Repr

/-- The four parts of a sample tick of which it performs exactly one (R96). -/
inductive TickPart where
  | finish
  | gen
  | start
  | nop
  deriving DecidableEq, Repr

/-- The bits of one row of spec/opcode_table.json: its word's width, and the value the word has on
the bits of the mask (R108). -/
structure RowPattern where
  width : Nat
  value : Nat
  mask : Nat
  deriving DecidableEq, Repr

end Sys2Proof
end

