-- ==== Sys2Proof/Decode.lean ====
section
/-! DEFINITION. Decoding and encoding (30_encoding.md R93 to R97, R105, R108). A word of the ports
decodes to a `CYC.*` operation, a slot command to a `SLOT.*` operation, the word of no bits to
`SLOT.HASPENDING`. The `DEC.*` and `SYN.*` rows share the words of the `CYC.*` rows and are selected
with the state (`Machine/Flags.lean`). -/

namespace Sys2Proof

/-- `CW[4]` (R93). -/
def rstBit (w : CommandWord) : Line := w.getLsbD 4
/-- `CW[3]`. -/
def tickLoBit (w : CommandWord) : Line := w.getLsbD 3
/-- `CW[2]`. -/
def tickHiBit (w : CommandWord) : Line := w.getLsbD 2
/-- `CW[1]`. -/
def movingBit (w : CommandWord) : Line := w.getLsbD 1
/-- `CW[0]`. -/
def pulseBit (w : CommandWord) : Line := w.getLsbD 0

/-- `SC[5]` (R97). -/
def pushBit (w : SlotCommand) : Line := w.getLsbD 5
/-- `SC[4]`. -/
def takeBit (w : SlotCommand) : Line := w.getLsbD 4
/-- `SC[3:0]`. -/
def pushDigitField (w : SlotCommand) : Digit := w.extractLsb' 0 4

/-- The five patterns of the command word (R94). -/
def decodeCommand (w : CommandWord) : Instr :=
  match rstBit w, tickLoBit w, tickHiBit w with
  | true, _, _ => .cycReset
  | false, false, false => .cycNop
  | false, true, false => .cycDec (movingBit w) (pulseBit w)
  | false, false, true => .cycSyn
  | false, true, true => .cycBoth (movingBit w) (pulseBit w)

/-- The four patterns of the slot command (R97). -/
def decodeSlotCommand (w : SlotCommand) : Instr :=
  match pushBit w, takeBit w with
  | false, false => .slotHold
  | true, false => .slotPush (pushDigitField w)
  | false, true => .slotTake
  | true, true => .slotPushTake (pushDigitField w)

/-- The operation an input word stands for: total, since no word is illegal (R104 (a), (b)). -/
def decode : InputWord → Instr
  | .ports cw => decodeCommand cw
  | .slot sc => decodeSlotCommand sc
  | .outputRead => .slotHasPending

/-- The input word whose bits are `w`, of `nbits` bits in whole bytes. A row of no bits is the output
read. Five bits are a command word. Six bits with bit 5 set can only be a slot command: the two
slot commands with bit 5 clear share their bits with command words, and such bits are read as the
command word, which is what the assembled block has pins for (log 4). -/
def rawWord (nbits w : Nat) : Except DecodeError InputWord :=
  if nbits = 0 then .ok .outputRead
  else if w < 32 then .ok (.ports (BitVec.ofNat 5 w))
  else if w < 64 then .ok (.slot (BitVec.ofNat 6 w))
  else .error .noSuchWord

/-- The instruction the decoder reads from bits numbered as spec/opcode_table.json numbers them. -/
def decodeTableWord (nbits w : Nat) : Option Instr :=
  match rawWord nbits w with
  | .ok word => some (decode word)
  | .error _ => none

/-- `{rst, tick_lo, tick_hi, moving_n, pulse}` (R93). -/
def commandWord (rst lo hi m p : Line) : CommandWord :=
  BitVec.ofNat 5 (16 * rst.toNat + 8 * lo.toNat + 4 * hi.toNat + 2 * m.toNat + p.toNat)

/-- `{push, take, push_digit}` (R97). -/
def slotCommandWord (push take : Line) (d : Digit) : SlotCommand :=
  BitVec.ofNat 6 (32 * push.toNat + 16 * take.toNat + d.toNat)

/-- The word of an instruction, ignored bits 0 (the canonical words of R106). For a `DEC.*` or
`SYN.*` row it is the word of the cycle that performs the row with the other tick low (R94). -/
def encode : Instr → InputWord
  | .cycReset => .ports (commandWord true false false false false)
  | .cycNop => .ports (commandWord false false false false false)
  | .cycDec m p => .ports (commandWord false true false m p)
  | .cycSyn => .ports (commandWord false false true false false)
  | .cycBoth m p => .ports (commandWord false true true m p)
  | .decTick m p => .ports (commandWord false true false m p)
  | .decSample m p => .ports (commandWord false true false m p)
  | .decRestIdle => .ports (commandWord false true false true false)
  | .decRestEmit => .ports (commandWord false true false true false)
  | .decRestDiscard => .ports (commandWord false true false true false)
  | .decMoveCount => .ports (commandWord false true false false true)
  | .decMoveHold => .ports (commandWord false true false false false)
  | .synTick => .ports (commandWord false false true false false)
  | .synFinish => .ports (commandWord false false true false false)
  | .synGen => .ports (commandWord false false true false false)
  | .synStart => .ports (commandWord false false true false false)
  | .synNop => .ports (commandWord false false true false false)
  | .slotHold => .slot (slotCommandWord false false 0)
  | .slotPush d => .slot (slotCommandWord true false d)
  | .slotTake => .slot (slotCommandWord false true 0)
  | .slotPushTake d => .slot (slotCommandWord true true d)
  | .slotHasPending => .outputRead

/-- The operation whose cycle performs an instruction: itself for a `CYC.*` or `SLOT.*` row, the
cycle with that one tick for a `DEC.*` or `SYN.*` row (R108). -/
def Instr.cycleOf : Instr → Instr
  | .decTick m p => .cycDec m p
  | .decSample m p => .cycDec m p
  | .decRestIdle => .cycDec true false
  | .decRestEmit => .cycDec true false
  | .decRestDiscard => .cycDec true false
  | .decMoveCount => .cycDec false true
  | .decMoveHold => .cycDec false false
  | .synTick => .cycSyn
  | .synFinish => .cycSyn
  | .synGen => .cycSyn
  | .synStart => .cycSyn
  | .synNop => .cycSyn
  | .cycReset => .cycReset
  | .cycNop => .cycNop
  | .cycDec m p => .cycDec m p
  | .cycSyn => .cycSyn
  | .cycBoth m p => .cycBoth m p
  | .slotHold => .slotHold
  | .slotPush d => .slotPush d
  | .slotTake => .slotTake
  | .slotPushTake d => .slotPushTake d
  | .slotHasPending => .slotHasPending

/-- The family of an instruction (00_scope.md R12). -/
def Instr.family : Instr → Family
  | .cycReset | .cycNop | .cycDec _ _ | .cycSyn | .cycBoth _ _ => .cyc
  | .decTick _ _ | .decSample _ _ | .decRestIdle | .decRestEmit => .dec
  | .decRestDiscard | .decMoveCount | .decMoveHold => .dec
  | .synTick | .synFinish | .synGen | .synStart | .synNop => .syn
  | .slotHold | .slotPush _ | .slotTake | .slotPushTake _ | .slotHasPending => .slot

/-- Match and mask of the instruction's row, as spec/opcode_table.json writes them (R94 to R97). -/
def Instr.row : Instr → RowPattern
  | .cycReset => ⟨5, 0x10, 0x10⟩
  | .cycNop => ⟨5, 0x00, 0x1C⟩
  | .cycDec _ _ => ⟨5, 0x08, 0x1C⟩
  | .cycSyn => ⟨5, 0x04, 0x1C⟩
  | .cycBoth _ _ => ⟨5, 0x0C, 0x1C⟩
  | .decTick _ _ => ⟨5, 0x08, 0x18⟩
  | .decSample _ _ => ⟨5, 0x08, 0x18⟩
  | .decRestIdle => ⟨5, 0x0A, 0x1A⟩
  | .decRestEmit => ⟨5, 0x0A, 0x1A⟩
  | .decRestDiscard => ⟨5, 0x0A, 0x1A⟩
  | .decMoveCount => ⟨5, 0x09, 0x1B⟩
  | .decMoveHold => ⟨5, 0x08, 0x1A⟩
  | .synTick => ⟨5, 0x04, 0x14⟩
  | .synFinish => ⟨5, 0x04, 0x14⟩
  | .synGen => ⟨5, 0x04, 0x14⟩
  | .synStart => ⟨5, 0x04, 0x14⟩
  | .synNop => ⟨5, 0x04, 0x14⟩
  | .slotHold => ⟨6, 0x00, 0x30⟩
  | .slotPush _ => ⟨6, 0x20, 0x30⟩
  | .slotTake => ⟨6, 0x10, 0x30⟩
  | .slotPushTake _ => ⟨6, 0x30, 0x30⟩
  | .slotHasPending => ⟨0, 0x00, 0x00⟩

/-- The bits of the row that carry the instruction's operands (R102). -/
def Instr.operandMask : Instr → Nat
  | .cycDec _ _ | .cycBoth _ _ | .decTick _ _ | .decSample _ _ => 0x03
  | .slotPush _ | .slotPushTake _ => 0x0F
  | .cycReset | .cycNop | .cycSyn => 0
  | .decRestIdle | .decRestEmit | .decRestDiscard | .decMoveCount | .decMoveHold => 0
  | .synTick | .synFinish | .synGen | .synStart | .synNop => 0
  | .slotHold | .slotTake | .slotHasPending => 0

/-- The bits of an input word as a number, and how many they are. -/
def InputWord.bits : InputWord → Nat × Nat
  | .ports cw => (5, cw.toNat)
  | .slot sc => (6, sc.toNat)
  | .outputRead => (0, 0)

end Sys2Proof
end

