-- ==== Sys2Proof/Config.lean ====
section
/-! DEFINITION. The configuration record `CFG`, fixed before reset is released (00_scope.md R5, R8).
Which configurations are admitted is `WellFormed.lean`; the reference configuration and the values
computed from a configuration are `Machine/Tables.lean`. -/

namespace Sys2Proof

/-- The serial order of a cycle with both ticks, `COINCIDENT_ORDER` (R5, 43_core_cycle.md R224). -/
inductive CoincidentOrder where
  /-- `SYN_FIRST`, the default: the sample tick is the earlier event. -/
  | synFirst
  /-- `DEC_FIRST`: the poll is the earlier event. -/
  | decFirst
  deriving DecidableEq, Repr

/-- One entry of `DIGIT_FREQ`: the column (high) and the row (low) frequency in Hz (R5, R66). -/
structure TonePair where
  high : Nat
  low : Nat
  deriving DecidableEq, Repr

/-- The fields of `CFG`, in the order of the table of R5. -/
structure Config where
  /-- `TABLE_LEN`: number of entries of the sine table. -/
  tableLen : Nat
  /-- `AMP_MAX`: the largest amplitude of a table entry or of the output level. -/
  ampMax : Nat
  /-- `SAMPLE_RATE`: rate of the high-rate tick in Hz, used at build time only. -/
  sampleRate : Nat
  /-- `DURATION_MS`: tone duration, used at build time only; `none` where `TONE_TICKS` is taken
  directly as the parameter (42_synth.md R192). -/
  durationMs : Option Nat
  /-- `TONE_TICKS`: number of generating ticks per digit. -/
  toneTicks : Nat
  /-- `SILENCE_LEVEL`: the level written to silence the output. -/
  silenceLevel : Nat
  /-- `SINE[0..TABLE_LEN-1]`: contents of the sine ROM. -/
  sine : List Nat
  /-- `DIGIT_FREQ[0..9]`: digit to frequency pair, digit 0 first. -/
  digitFreq : List TonePair
  /-- `COINCIDENT_ORDER`. -/
  coincidentOrder : CoincidentOrder
  /-- `POLL_MS`: interval of the low-rate tick, read by no rule; `none` is "not fixed" (R5). -/
  pollMs : Option Nat
  deriving DecidableEq, Repr

end Sys2Proof
end

