-- ==== Sys2Proof/Machine/Tables.lean ====
section
/-! DEFINITION. What is computed from a configuration at build time (widths, phase steps, tone
ticks) and the reference configuration `REF` with its tables (00_scope.md R5, R6; 20_memory.md R64,
R67, R68; 42_synth.md R192). -/

namespace Sys2Proof

/-- `STEP(f)`: the phase step of a frequency, to the nearest integer, ties upward (R68). -/
def Config.phaseStep (c : Config) (f : Nat) : Nat :=
  (2 * c.tableLen * f + c.sampleRate) / (2 * c.sampleRate)

/-- `floor(DURATION_MS * SAMPLE_RATE / 1000)`, the product formed first (R192). -/
def toneTicksFor (durationMs sampleRate : Nat) : Nat :=
  durationMs * sampleRate / 1000

/-- `PHW`: width of a phase or step register (R6). -/
def Config.phw (c : Config) : Nat :=
  Nat.log2 (c.tableLen - 1) + 1

/-- `AW`: width of a table entry and of the output level (R6). -/
def Config.aw (c : Config) : Nat :=
  Nat.log2 c.ampMax + 1

/-- `RCW`: width of `remainingCycles`, at least 2 (R6). -/
def Config.rcw (c : Config) : Nat :=
  Nat.log2 c.toneTicks + 2

/-- The frequencies that occur in `DIGIT_FREQ`: the index set of `FREQ_STEP` (R60, R67). -/
def Config.frequencies (c : Config) : List Nat :=
  c.digitFreq.flatMap fun t => [t.high, t.low]

/-- The fused table `DIGIT_STEP` (R70): per digit the pair (`highStep`, `lowStep`). -/
def Config.digitStep (c : Config) : List (Nat × Nat) :=
  c.digitFreq.map fun t => (c.phaseStep t.high, c.phaseStep t.low)

/-- The `REF` sine table (R64), sixteen entries a line. -/
def sineRef : List Nat :=
  [128, 131, 134, 137, 140, 143, 146, 149, 152, 155, 158, 162, 165, 167, 170, 173]
  ++ [176, 179, 182, 185, 188, 190, 193, 196, 198, 201, 203, 206, 208, 211, 213, 215]
  ++ [218, 220, 222, 224, 226, 228, 230, 232, 234, 235, 237, 238, 240, 241, 243, 244]
  ++ [245, 246, 248, 249, 250, 250, 251, 252, 253, 253, 254, 254, 254, 255, 255, 255]
  ++ [255, 255, 255, 255, 254, 254, 254, 253, 253, 252, 251, 250, 250, 249, 248, 246]
  ++ [245, 244, 243, 241, 240, 238, 237, 235, 234, 232, 230, 228, 226, 224, 222, 220]
  ++ [218, 215, 213, 211, 208, 206, 203, 201, 198, 196, 193, 190, 188, 185, 182, 179]
  ++ [176, 173, 170, 167, 165, 162, 158, 155, 152, 149, 146, 143, 140, 137, 134, 131]
  ++ [128, 124, 121, 118, 115, 112, 109, 106, 103, 100, 97, 93, 90, 88, 85, 82]
  ++ [79, 76, 73, 70, 67, 65, 62, 59, 57, 54, 52, 49, 47, 44, 42, 40]
  ++ [37, 35, 33, 31, 29, 27, 25, 23, 21, 20, 18, 17, 15, 14, 12, 11]
  ++ [10, 9, 7, 6, 5, 5, 4, 3, 2, 2, 1, 1, 1, 0, 0, 0]
  ++ [0, 0, 0, 0, 1, 1, 1, 2, 2, 3, 4, 5, 5, 6, 7, 9]
  ++ [10, 11, 12, 14, 15, 17, 18, 20, 21, 23, 25, 27, 29, 31, 33, 35]
  ++ [37, 40, 42, 44, 47, 49, 52, 54, 57, 59, 62, 65, 67, 70, 73, 76]
  ++ [79, 82, 85, 88, 90, 93, 97, 100, 103, 106, 109, 112, 115, 118, 121, 124]

/-- The `REF` digit to frequency table (R67), digit 0 first. -/
def digitFreqRef : List TonePair :=
  [⟨1336, 941⟩, ⟨1209, 697⟩, ⟨1336, 697⟩, ⟨1477, 697⟩, ⟨1209, 770⟩,
   ⟨1336, 770⟩, ⟨1477, 770⟩, ⟨1209, 852⟩, ⟨1336, 852⟩, ⟨1477, 852⟩]

/-- The reference configuration `REF` (R5). -/
def Config.ref : Config where
  tableLen := 256
  ampMax := 255
  sampleRate := 62500
  durationMs := some 100
  toneTicks := 6250
  silenceLevel := 0
  sine := sineRef
  digitFreq := digitFreqRef
  coincidentOrder := .synFirst
  pollMs := none

end Sys2Proof
end

