-- ==== Sys2Proof/Machine/State.lean ====
section
/-! DEFINITION. The machine's state: the thirteen registers of 10_state.md R20, grouped by owner
(R47), with the model's own fields beside them (the configuration, whether reset has been applied, the outputs
of the operation last performed, the input words still to come). Reset values are those of R44. -/

namespace Sys2Proof.Machine

/-- The registers only slot operations write (R21, R22, R32). -/
structure SlotRegs where
  /-- `slot_valid`: a digit is pending. -/
  valid : Bool
  /-- `slot_digit`: the pending digit, or 15. -/
  digit : Digit
  /-- `fault`: the two sticky fault bits. -/
  fault : FaultBits
  deriving DecidableEq, Repr

/-- The decoder's registers (R23 to R26). -/
structure DecRegs where
  /-- `movingSignal`: `moving_n` at the most recent poll. -/
  movingSignal : Line
  /-- `pulseSignal`: `pulse` at the most recent poll. -/
  pulseSignal : Line
  /-- `previousPulseSignal`: `pulse` at the poll before it. -/
  previousPulseSignal : Line
  /-- `pulseCount`: pulses of the current rotation, saturating at 15. -/
  pulseCount : BitVec 4
  deriving DecidableEq, Repr

/-- The synthesizer's registers (R27 to R31, R38). Their widths `RCW`, `PHW` and `AW` depend on the
configuration, so they are held as numbers (00_scope.md R6); that each fits its width is an
invariant. -/
structure SynRegs where
  /-- `remainingCycles`: negative idle, 0 finishing, positive generating. -/
  remainingCycles : Int
  /-- `highPhase`: position of the high component in the sine table. -/
  highPhase : Nat
  /-- `lowPhase`: position of the low component. -/
  lowPhase : Nat
  /-- `highStep`: advance of `highPhase` per sample. -/
  highStep : Nat
  /-- `lowStep`: advance of `lowPhase` per sample. -/
  lowStep : Nat
  /-- `level`: the output amplitude. -/
  level : Nat
  deriving DecidableEq, Repr

/-- What the output ports (30_encoding.md R90, R91) and the wires `take` and `take_digit` between the
slot and the synthesizer (R92) showed during the operation last performed. None of it is a register
(R38, R39). -/
structure Outputs where
  level : Nat
  levelWr : Line
  idle : Line
  pending : Line
  fault : FaultBits
  /-- `take`: the slot was taken in the operation. -/
  take : Line
  /-- `take_digit`: the `slot_digit` held during the operation (R92); in a take, the result it returns
  (40_slot.md R133, R134). -/
  takeDigit : Digit
  deriving DecidableEq, Repr

/-- The whole state of one instance of the block with its environment's input words. -/
structure State where
  /-- The configuration the instance was built with; no operation changes it (00_scope.md R8). -/
  cfg : Config
  /-- Reset has been applied: `false` before the first reset, when the registers hold no defined value
  (70_reset_and_hazards.md R272). -/
  begun : Bool
  slot : SlotRegs
  dec : DecRegs
  syn : SynRegs
  out : Outputs
  /-- The input words still to come, the next cycle's first. -/
  trace : List InputWord
  deriving DecidableEq, Repr

/-- Why the machine stops with a fault: never, so no constructor. "The block cannot hang, cannot be
stuck and cannot trap" (43_core_cycle.md R226). The spec's two faults are sticky bits that stop
nothing (60_exceptions.md R246): see `FaultCode`. -/
inductive Fault where
  deriving DecidableEq, Repr

/-- Why a step gives no next state. -/
inductive Refusal where
  /-- Raised by an arm of `exec` whose instruction has no meaning yet: no arm raises it. Safe. -/
  | notModelled (mnemonic : String)
  /-- Raised by `step` when the environment supplies no more words: "a run ends where the environment
  stops supplying command words" (70_reset_and_hazards.md R275). Safe. -/
  | traceEnded
  /-- Raised by `step` before the first reset on a word that is no reset: a model "gives no meaning to a
  run that begins otherwise" (70_reset_and_hazards.md R272; 93_implementation_defined.md U5). Safe. -/
  | beforeReset
  /-- Raised by every operation under a configuration that is not admitted: "a model refuses any
  other configuration (it gives it no meaning)" (00_scope.md R7). Safe. -/
  | configurationNotAdmitted
  /-- Raised by a part of a poll or of a sample tick performed on its own when the registers it acts
  on do not select it (30_encoding.md R95, R96): the block never performs it there. Safe. -/
  | notSelected
  /-- Raised by a table read outside the table's index set, which "has no meaning" (20_memory.md R73);
  no state reachable from reset reads there. Safe. -/
  | romIndexOutOfRange
  deriving DecidableEq, Repr

/-- The two fault causes (60_exceptions.md R241). -/
inductive FaultCode where
  /-- Code 0, `FAULT_EMPTY_TAKE` (R242). -/
  | emptyTake
  /-- Code 1, `FAULT_BAD_DIGIT` (R243). -/
  | badDigit
  deriving DecidableEq, Repr

/-- The outcome of an operation. -/
abbrev Result := Host.Outcome State Fault Refusal

/-- The slot's registers after reset (R44). -/
def SlotRegs.afterReset : SlotRegs where
  valid := false
  digit := emptyDigit
  fault := 0#2

/-- The decoder's registers after reset (R44). -/
def DecRegs.afterReset : DecRegs where
  movingSignal := false
  pulseSignal := false
  previousPulseSignal := false
  pulseCount := 0#4

/-- The synthesizer's registers after reset under a configuration (R44). -/
def SynRegs.afterReset (c : Config) : SynRegs where
  remainingCycles := -1
  highPhase := 0
  lowPhase := 0
  highStep := 0
  lowStep := 0
  level := c.silenceLevel

/-- The outputs after reset (R44); `take_digit` shows the `slot_digit` of the reset state (R92). -/
def Outputs.afterReset (c : Config) : Outputs where
  level := c.silenceLevel
  levelWr := false
  idle := true
  pending := false
  fault := 0#2
  take := false
  takeDigit := emptyDigit

/-- An instance built with configuration `c`, right after reset, its input words still to be given. -/
def State.resetWith (c : Config) : State where
  cfg := c
  begun := true
  slot := SlotRegs.afterReset
  dec := DecRegs.afterReset
  syn := SynRegs.afterReset c
  out := Outputs.afterReset c
  trace := []

/-- The machine right after reset: the reference configuration `REF` (00_scope.md R5). -/
def State.reset : State := State.resetWith Config.ref

end Sys2Proof.Machine
end

