-- ==== Sys2Proof/Machine/Flags.lean ====
section
/-! DEFINITION. Status outputs, fault bits and the predicates that steer a cycle (10_state.md R39 to
R41), and the selection of the part a poll or a sample tick performs (30_encoding.md R95, R96). -/

namespace Sys2Proof.Machine

/-- The status output `idle` (R39). -/
def State.idle (s : State) : Line := decide (s.syn.remainingCycles < 0)

/-- The status output `pending`, which is `SlotHasPending()` (R39, 40_slot.md R131). -/
def State.pending (s : State) : Line := s.slot.valid

/-- The wire `take_digit`, "the current `slot_digit`", which the slot drives in every cycle
(30_encoding.md R92). -/
def State.takeDigit (s : State) : Digit := s.slot.digit

/-- The bit of the `fault` register that a fault code names (60_exceptions.md R241). -/
def FaultCode.bit : FaultCode → FaultBits
  | .emptyTake => 0b01#2
  | .badDigit => 0b10#2

/-- A fault bit is set. -/
def State.faultSet (s : State) (k : FaultCode) : Bool := s.slot.fault &&& k.bit != 0#2

/-- `at_rest`: the sampled `moving_n` is 1 (41_decoder.md R152). -/
def atRest (m : Line) : Bool := m

/-- `rising`: the previous sample of `pulse` is 0 and the present one is 1 (R152). -/
def rising (prev p : Line) : Bool := !prev && p

/-- The three classes of `pulseCount` (30_encoding.md R101). -/
def countIsZero (n : BitVec 4) : Bool := decide (n.toNat = 0)
/-- A valid count, 1 to 10. -/
def countIsValid (n : BitVec 4) : Bool := decide (1 ≤ n.toNat) && decide (n.toNat ≤ 10)
/-- A count out of range, 11 to 15. -/
def countIsExcess (n : BitVec 4) : Bool := decide (11 ≤ n.toNat)

/-- The part a poll performs, from the old decoder registers and the two samples (R95). -/
def selectPoll (d : DecRegs) (m p : Line) : PollPart :=
  if atRest m then
    if countIsZero d.pulseCount then .restIdle
    else if countIsValid d.pulseCount then .restEmit
    else .restDiscard
  else if rising d.pulseSignal p then .moveCount
  else .moveHold

/-- The part a sample tick performs, in the fixed priority order (R96). -/
def selectTick (remainingCycles : Int) (pending : Line) : TickPart :=
  if remainingCycles = 0 then .finish
  else if remainingCycles > 0 then .gen
  else if pending then .start
  else .nop

end Sys2Proof.Machine
end

