-- ==== Sys2Proof/Machine/Operands.lean ====
section
/-! DEFINITION. Operand assembly (30_encoding.md R102): the four table reads (20_memory.md R60, R73),
the step pair of a digit, the slot command of a cycle (R97), and the registers seen as words (R98,
R100). -/

namespace Sys2Proof.Machine

/-- `RomRead(SINE, i)`; no meaning outside `0..TABLE_LEN-1` (R63, R73). -/
def romSine (c : Config) (i : Nat) : Option Nat := c.sine[i]?

/-- `RomRead(PC2DIGIT, n)`: `(n = 10) ? 0 : n` on `1..10` (R65). -/
def romPc2Digit (n : BitVec 4) : Option Digit :=
  if countIsValid n then some (if n.toNat = 10 then 0#4 else n) else none

/-- `RomRead(DIGIT_FREQ, d)` (R66). -/
def romDigitFreq (c : Config) (d : Digit) : Option TonePair := c.digitFreq[d.toNat]?

/-- `RomRead(FREQ_STEP, f)`, on the frequencies that occur in `DIGIT_FREQ` (R67, R68). -/
def romFreqStep (c : Config) (f : Nat) : Option Nat :=
  if c.frequencies.contains f then some (c.phaseStep f) else none

/-- (`highStep`, `lowStep`) of a digit, by the three table reads of `SYN.START` (42_synth.md R186). -/
def stepPair (c : Config) (d : Digit) : Option (Nat × Nat) :=
  match romDigitFreq c d with
  | none => none
  | some t =>
    match romFreqStep c t.high, romFreqStep c t.low with
    | some h, some l => some (h, l)
    | _, _ => none

/-- The poll of the cycle pushes: its part is `DEC.REST.EMIT` (R97). -/
def pushes (s : State) (w : CommandWord) : Bool :=
  !rstBit w && tickLoBit w && selectPoll s.dec (movingBit w) (pulseBit w) == .restEmit

/-- `pending` as the sample tick of the cycle sees it: under `DEC_FIRST` in a cycle with both ticks,
after the poll's push (R96, 43_core_cycle.md R224). -/
def pendingAtTick (s : State) (w : CommandWord) : Line :=
  match s.cfg.coincidentOrder with
  | .synFirst => s.slot.valid
  | .decFirst => s.slot.valid || pushes s w

/-- The sample tick of the cycle takes: its part is `SYN.START` (R97). -/
def takes (s : State) (w : CommandWord) : Bool :=
  !rstBit w && tickHiBit w &&
    selectTick s.syn.remainingCycles (pendingAtTick s w) == .start

/-- The slot command the two agents drive in a cycle (R92, R97); the digit bits are 0 where nothing is
pushed. -/
def slotCommandOf (s : State) (w : CommandWord) : SlotCommand :=
  slotCommandWord (pushes s w) (takes s w)
    (if pushes s w then (romPc2Digit s.dec.pulseCount).getD 0 else 0)

/-- The slot word `{slot_valid, slot_digit}` (R98). -/
def slotWord (r : SlotRegs) : BitVec 5 :=
  BitVec.ofNat 5 (16 * r.valid.toNat + r.digit.toNat)

/-- `remainingCycles` as the `RCW`-bit two's complement register (R100). -/
def remainingCyclesWord (c : Config) (r : SynRegs) : BitVec c.rcw :=
  BitVec.ofInt c.rcw r.remainingCycles

end Sys2Proof.Machine
end

