-- ==== Sys2Proof/WellFormed.lean ====
section
/-! DEFINITION. Which configurations are admitted (00_scope.md R5, R7) and which instructions carry
a legal operand (30_encoding.md R99, R104). Each check is named, so that a test can show it refuse. -/

namespace Sys2Proof

/-- R7 (a): `TABLE_LEN >= 2`, and `SINE` has `TABLE_LEN` entries (20_memory.md R61). -/
def Config.tableOk (c : Config) : Bool :=
  decide (2 ≤ c.tableLen) && c.sine.length == c.tableLen

/-- R7 (b): every `SINE[i]` is in `0..AMP_MAX`; `AMP_MAX` is at least 1 (R5). -/
def Config.amplitudeOk (c : Config) : Bool :=
  decide (1 ≤ c.ampMax) && c.sine.all fun a => decide (a ≤ c.ampMax)

/-- R7 (c): the steps of every digit are below `TABLE_LEN`; `DIGIT_FREQ` has ten pairs of positive
frequencies and the sample rate is at least 1 (R5). -/
def Config.stepsOk (c : Config) : Bool :=
  decide (1 ≤ c.sampleRate) && c.digitFreq.length == 10 &&
    c.digitFreq.all fun t =>
      decide (0 < t.high) && decide (0 < t.low) &&
        decide (c.phaseStep t.high < c.tableLen) && decide (c.phaseStep t.low < c.tableLen)

/-- R7 (d): `SILENCE_LEVEL` is in `0..AMP_MAX`. -/
def Config.silenceOk (c : Config) : Bool :=
  decide (c.silenceLevel ≤ c.ampMax)

/-- R5, R192: where `DURATION_MS` is given, `TONE_TICKS` is computed from it. R7 (e) holds of every
natural number. -/
def Config.toneTicksOk (c : Config) : Bool :=
  c.durationMs.all fun d => c.toneTicks == toneTicksFor d c.sampleRate

/-- R5: `POLL_MS`, where fixed, is positive. -/
def Config.pollOk (c : Config) : Bool :=
  c.pollMs.all fun t => decide (0 < t)

/-- The configuration is admitted (R7). -/
def Config.admitted (c : Config) : Bool :=
  c.tableOk && c.amplitudeOk && c.stepsOk && c.silenceOk && c.toneTicksOk && c.pollOk

/-- A code that is a decimal digit, 0 to 9 (R99). -/
def isDecimal (d : Digit) : Bool :=
  decide (d.toNat ≤ 9)

/-- The operands are legal: a pushed code is a decimal digit (R104 (b)). An instruction that is not
well-formed still has its meaning, the fault of 40_slot.md R132. -/
def Instr.wellFormed : Instr → Bool
  | .slotPush d | .slotPushTake d => isDecimal d
  | .cycReset | .cycNop | .cycDec _ _ | .cycSyn | .cycBoth _ _ => true
  | .decTick _ _ | .decSample _ _ | .decRestIdle | .decRestEmit => true
  | .decRestDiscard | .decMoveCount | .decMoveHold => true
  | .synTick | .synFinish | .synGen | .synStart | .synNop => true
  | .slotHold | .slotTake | .slotHasPending => true

end Sys2Proof
end

