-- ==== Sys2Proof/Machine/Ops.lean ====
section
/-! DEFINITION. The named operations every meaning is built from: the primitives of 00_scope.md R13
(`raise Fault`, `SlotPush`, `SlotTake`, `LevelWrite`), the adders of 42_synth.md, the reset of every
register, and the frame of one cycle. The block takes no exception in the processor's sense:
`raiseFault` is the one shared operation of a fault, and there is no return from one
(60_exceptions.md R246, R247). -/

namespace Sys2Proof.Machine

/-- `raise Fault(k)`: sets the bit and does nothing else (60_exceptions.md R246). -/
def raiseFault (k : FaultCode) (s : State) : State :=
  { s with slot := { s.slot with fault := s.slot.fault ||| k.bit } }

/-- `SlotPush(d)` (40_slot.md R132). -/
def slotPush (d : Digit) (s : State) : State :=
  if isDecimal d then { s with slot := { s.slot with valid := true, digit := d } }
  else raiseFault .badDigit s

/-- The fault a take raises on an empty slot (R133). -/
def faultIfEmpty (s : State) : State :=
  if s.slot.valid then s else raiseFault .emptyTake s

/-- `SlotTake()`: the result is what `take_digit` shows, the held digit or 15; the slot is emptied, a
fault raised if it was empty (R133). -/
def slotTake (s : State) : State :=
  let t := faultIfEmpty s
  { t with slot := { t.slot with valid := false, digit := emptyDigit },
           out := { t.out with take := true, takeDigit := s.takeDigit } }

/-- A push and a take in one cycle, serially in the order `COINCIDENT_ORDER` gives (R134). -/
def slotPushTake (d : Digit) (s : State) : State :=
  match s.cfg.coincidentOrder with
  | .synFirst => slotPush d (slotTake s)
  | .decFirst => slotTake (slotPush d s)

/-- `LevelWrite(v)`: the register and the cycle's strobe (00_scope.md R13, 10_state.md R38). -/
def levelWrite (v : Nat) (s : State) : State :=
  { s with syn := { s.syn with level := v }, out := { s.out with levelWr := true } }

/-- The scaling adder: the truncated mean (42_synth.md R184). -/
def mean (a b : Nat) : Nat := (a + b) / 2

/-- The phase advance: one conditional subtraction (R185). -/
def advance (c : Config) (ph st : Nat) : Nat :=
  if ph + st > c.tableLen - 1 then ph + st - c.tableLen else ph + st

/-- The saturating increment of `pulseCount` (41_decoder.md R156). -/
def countUp (n : BitVec 4) : BitVec 4 := BitVec.ofNat 4 (min (n.toNat + 1) 15)

/-- Every register to its reset value (10_state.md R44, 43_core_cycle.md R221): from here on the
registers hold defined values (70_reset_and_hazards.md R272). -/
def resetRegisters (s : State) : State :=
  { s with begun := true, slot := SlotRegs.afterReset, dec := DecRegs.afterReset,
           syn := SynRegs.afterReset s.cfg }

/-- The outputs during a cycle that has written nothing yet: the ports show the state held during the
cycle (30_encoding.md R91), `level_wr` is 0, `take_digit` shows the `slot_digit` held (R92) and nothing
has been taken. -/
def openCycle (s : State) : State :=
  { s with out := { level := s.syn.level, levelWr := false, idle := s.idle, pending := s.pending,
                    fault := s.slot.fault, take := false, takeDigit := s.takeDigit } }

/-- One operation as one cycle; refused under a configuration that is not admitted (00_scope.md R7). -/
def inCycle (op : State → Result) (s : State) : Result :=
  if s.cfg.admitted then op (openCycle s) else .refused .configurationNotAdmitted

/-- Two events one after the other (43_core_cycle.md R224). -/
def serially (first second : State → Result) (s : State) : Result :=
  match first s with
  | .next t => second t
  | .fault r => .fault r
  | .refused r => .refused r

/-- An event that the registers select, refused where they do not (30_encoding.md R95, R96). -/
def whenSelected (selected : Bool) (op : State → Result) (s : State) : Result :=
  if selected then op s else .refused .notSelected

end Sys2Proof.Machine
end

