-- ==== Sys2Proof/Machine/Decoder.lean ====
section
/-! DEFINITION. The `DEC.*` rows (41_decoder.md R150 to R157): each part as an operation on the
state, and its meaning as an instruction. A part reads `pulseCount` and no sampled signal, so that it
can follow `DEC.SAMPLE` as the pseudocode writes it. -/

namespace Sys2Proof.Machine

/-- `DEC.SAMPLE m, p` (R151). -/
def sampleLines (m p : Line) (s : State) : State :=
  { s with dec := { s.dec with movingSignal := m, pulseSignal := p,
                               previousPulseSignal := s.dec.pulseSignal } }

/-- `pulseCount <- n`. -/
def setPulseCount (n : BitVec 4) (s : State) : State :=
  { s with dec := { s.dec with pulseCount := n } }

/-- `DEC.REST.IDLE`: nothing (R155). -/
def restIdle (s : State) : Result :=
  whenSelected (countIsZero s.dec.pulseCount) (fun t => .next t) s

/-- `DEC.REST.EMIT`: the digit of the count is pushed, the count cleared (R153). -/
def restEmit (s : State) : Result :=
  whenSelected (countIsValid s.dec.pulseCount) (fun t =>
    match romPc2Digit t.dec.pulseCount with
    | some d => .next (setPulseCount 0#4 (slotPush d t))
    | none => .refused .romIndexOutOfRange) s

/-- `DEC.REST.DISCARD`: the count is cleared, nothing is pushed (R154). -/
def restDiscard (s : State) : Result :=
  whenSelected (countIsExcess s.dec.pulseCount) (fun t => .next (setPulseCount 0#4 t)) s

/-- `DEC.MOVE.COUNT`: one pulse counted (R156). -/
def moveCount (s : State) : Result := .next (setPulseCount (countUp s.dec.pulseCount) s)

/-- `DEC.MOVE.HOLD`: the count keeps its value (R157). -/
def moveHold (s : State) : Result := .next s

/-- The part of a poll. -/
def pollPart : PollPart → State → Result
  | .restIdle => restIdle
  | .restEmit => restEmit
  | .restDiscard => restDiscard
  | .moveCount => moveCount
  | .moveHold => moveHold

/-- `DEC.TICK m, p`: sampling, then the part that the old registers and the samples select (R150). -/
def poll (m p : Line) (s : State) : Result :=
  pollPart (selectPoll s.dec m p) (sampleLines m p s)

/-- The meaning of `DEC.TICK m, p`. -/
def execDecTick (m p : Line) (s : State) : Result := inCycle (poll m p) s

/-- The meaning of `DEC.SAMPLE m, p`. -/
def execDecSample (m p : Line) (s : State) : Result :=
  inCycle (fun t => .next (sampleLines m p t)) s

/-- The meaning of `DEC.REST.IDLE`. -/
def execDecRestIdle (s : State) : Result := inCycle restIdle s

/-- The meaning of `DEC.REST.EMIT`. -/
def execDecRestEmit (s : State) : Result := inCycle restEmit s

/-- The meaning of `DEC.REST.DISCARD`. -/
def execDecRestDiscard (s : State) : Result := inCycle restDiscard s

/-- The meaning of `DEC.MOVE.COUNT`. -/
def execDecMoveCount (s : State) : Result := inCycle moveCount s

/-- The meaning of `DEC.MOVE.HOLD`. -/
def execDecMoveHold (s : State) : Result := inCycle moveHold s

end Sys2Proof.Machine
end

