-- ==== Sys2Proof/Machine/Synth.lean ====
section
/-! DEFINITION. The `SYN.*` rows (42_synth.md R180 to R187): each part as an operation on the state,
and its meaning as an instruction. -/

namespace Sys2Proof.Machine

/-- `SYN.FINISH`: silence, then idle (R182). -/
def finishTone (s : State) : Result :=
  whenSelected (decide (s.syn.remainingCycles = 0)) (fun t =>
    let u := levelWrite t.cfg.silenceLevel t
    .next { u with syn := { u.syn with remainingCycles := -1 } }) s

/-- `SYN.GEN`: one sample from the old phases, both phases advanced, one tick fewer (R183). -/
def generate (s : State) : Result :=
  whenSelected (decide (s.syn.remainingCycles > 0)) (fun t =>
    match romSine t.cfg t.syn.highPhase, romSine t.cfg t.syn.lowPhase with
    | some a, some b =>
      let u := levelWrite (mean a b) t
      .next { u with syn := { u.syn with
        highPhase := advance t.cfg t.syn.highPhase t.syn.highStep
        lowPhase := advance t.cfg t.syn.lowPhase t.syn.lowStep
        remainingCycles := t.syn.remainingCycles - 1 } }
    | _, _ => .refused .romIndexOutOfRange) s

/-- `SYN.START`: the pending digit taken, its steps loaded, both phases 0, the counter loaded
(R186). -/
def startTone (s : State) : Result :=
  whenSelected (decide (s.syn.remainingCycles < 0) && s.pending) (fun t =>
    let u := slotTake t
    match stepPair t.cfg t.takeDigit with
    | some (h, l) =>
      .next { u with syn := { u.syn with
        highStep := h
        lowStep := l
        highPhase := 0
        lowPhase := 0
        remainingCycles := t.cfg.toneTicks } }
    | none => .refused .romIndexOutOfRange) s

/-- `SYN.NOP`: nothing (R187). -/
def idleTick (s : State) : Result :=
  whenSelected (decide (s.syn.remainingCycles < 0) && !s.pending) (fun t => .next t) s

/-- The part of a sample tick. -/
def tickPart : TickPart → State → Result
  | .finish => finishTone
  | .gen => generate
  | .start => startTone
  | .nop => idleTick

/-- `SYN.TICK`: the part that the old state selects (R180). -/
def sampleTick (s : State) : Result :=
  tickPart (selectTick s.syn.remainingCycles s.pending) s

/-- The meaning of `SYN.TICK`. -/
def execSynTick (s : State) : Result := inCycle sampleTick s

/-- The meaning of `SYN.FINISH`. -/
def execSynFinish (s : State) : Result := inCycle finishTone s

/-- The meaning of `SYN.GEN`. -/
def execSynGen (s : State) : Result := inCycle generate s

/-- The meaning of `SYN.START`. -/
def execSynStart (s : State) : Result := inCycle startTone s

/-- The meaning of `SYN.NOP`. -/
def execSynNop (s : State) : Result := inCycle idleTick s

end Sys2Proof.Machine
end

