-- ==== Sys2Proof/Machine/Cycle.lean ====
section
/-! DEFINITION. The meanings of the `CYC.*` rows, one clock cycle each (43_core_cycle.md R221 to
R225). -/

namespace Sys2Proof.Machine

/-- `CYC.RESET`: every register to its reset value, no tick, nothing sampled, no strobe (R221). -/
def execCycReset (s : State) : Result := inCycle (fun t => .next (resetRegisters t)) s

/-- `CYC.NOP`: all registers keep their values (R222). -/
def execCycNop (s : State) : Result := inCycle (fun t => .next t) s

/-- `CYC.DEC m, p`: one poll (R223). -/
def execCycDec (m p : Line) (s : State) : Result := inCycle (poll m p) s

/-- `CYC.SYN`: one sample tick (R225). -/
def execCycSyn (s : State) : Result := inCycle sampleTick s

/-- Both events of a cycle with both ticks, in the order `COINCIDENT_ORDER` names (R224). The strobe
`level_wr` is the sample tick's: a poll does not touch it. -/
def bothTicks (m p : Line) (s : State) : Result :=
  match s.cfg.coincidentOrder with
  | .synFirst => serially sampleTick (poll m p) s
  | .decFirst => serially (poll m p) sampleTick s

/-- `CYC.BOTH m, p` (R224). -/
def execCycBoth (m p : Line) (s : State) : Result := inCycle (bothTicks m p) s

end Sys2Proof.Machine
end

