-- ==== Sys2Proof/Machine/Slot.lean ====
section
/-! DEFINITION. The meanings of the `SLOT.*` rows (40_slot.md R131 to R135). -/

namespace Sys2Proof.Machine

/-- `SLOT.HOLD`: the slot keeps its value (R135). -/
def execSlotHold (s : State) : Result := inCycle (fun t => .next t) s

/-- `SLOT.PUSH d` (R132). -/
def execSlotPush (d : Digit) (s : State) : Result := inCycle (fun t => .next (slotPush d t)) s

/-- `SLOT.TAKE`: the result stands on `take_digit` (R133). -/
def execSlotTake (s : State) : Result := inCycle (fun t => .next (slotTake t)) s

/-- `SLOT.PUSHTAKE d` (R134). -/
def execSlotPushTake (d : Digit) (s : State) : Result :=
  inCycle (fun t => .next (slotPushTake d t)) s

/-- `SLOT.HASPENDING`: no register changes; the result is the output `pending` of the cycle (R131),
which `openCycle` records. -/
def execSlotHasPending (s : State) : Result := inCycle (fun t => .next t) s

end Sys2Proof.Machine
end

