-- ==== Sys2Proof/Machine/Dispatch.lean ====
section
/-! DEFINITION. Dispatch: one arm per instruction. -/

namespace Sys2Proof.Machine

/-- The meaning of one instruction. -/
def exec (i : Instr) (s : State) : Host.Outcome State Fault Refusal :=
  match i with
  | .cycReset => Sys2Proof.Machine.execCycReset s
  | .cycNop => Sys2Proof.Machine.execCycNop s
  | .cycDec m p => Sys2Proof.Machine.execCycDec m p s
  | .cycSyn => Sys2Proof.Machine.execCycSyn s
  | .cycBoth m p => Sys2Proof.Machine.execCycBoth m p s
  | .decTick m p => Sys2Proof.Machine.execDecTick m p s
  | .decSample m p => Sys2Proof.Machine.execDecSample m p s
  | .decRestIdle => Sys2Proof.Machine.execDecRestIdle s
  | .decRestEmit => Sys2Proof.Machine.execDecRestEmit s
  | .decRestDiscard => Sys2Proof.Machine.execDecRestDiscard s
  | .decMoveCount => Sys2Proof.Machine.execDecMoveCount s
  | .decMoveHold => Sys2Proof.Machine.execDecMoveHold s
  | .synTick => Sys2Proof.Machine.execSynTick s
  | .synFinish => Sys2Proof.Machine.execSynFinish s
  | .synGen => Sys2Proof.Machine.execSynGen s
  | .synStart => Sys2Proof.Machine.execSynStart s
  | .synNop => Sys2Proof.Machine.execSynNop s
  | .slotHold => Sys2Proof.Machine.execSlotHold s
  | .slotPush d => Sys2Proof.Machine.execSlotPush d s
  | .slotTake => Sys2Proof.Machine.execSlotTake s
  | .slotPushTake d => Sys2Proof.Machine.execSlotPushTake d s
  | .slotHasPending => Sys2Proof.Machine.execSlotHasPending s

end Sys2Proof.Machine
end

