-- ==== Sys2Proof/Machine/Perform.lean ====
section
/-! DEFINITION. An operation as the next one of a run: before the first reset only a reset cycle has a
meaning (70_reset_and_hazards.md R272, 93_implementation_defined.md U5). -/

namespace Sys2Proof.Machine

/-- A run may go on with the operation: reset has been applied, or the operation applies it. -/
def State.mayPerform (s : State) (i : Instr) : Bool := s.begun || decide (i = .cycReset)

/-- The operation as the next one of a run; refused where the run would begin otherwise than from
reset. -/
def perform (i : Instr) (s : State) : Result :=
  if s.mayPerform i then exec i s else .refused .beforeReset

end Sys2Proof.Machine
end

