-- ==== Sys2Proof/Machine/Step.lean ====
section
/-! DEFINITION. One step: the next input word is consumed and its operation performed
(43_core_cycle.md R220). -/

namespace Sys2Proof.Machine

/-- One cycle under the next word of the trace; refused where the run ends (70_reset_and_hazards.md
R275) and where it does not begin from reset (R272). -/
def step (s : State) : Host.Outcome State Fault Refusal :=
  match s.trace with
  | [] => .refused .traceEnded
  | w :: rest => perform (decode w) { s with trace := rest }

/-- `s` with the given table word as its next input word, the words already there after it. A word
that is none of the block's leaves the trace empty, so that `step` runs nothing. -/
def State.withFetchWord (s : State) (nbits w : Nat) : State :=
  match rawWord nbits w with
  | .ok word => { s with trace := word :: s.trace }
  | .error _ => { s with trace := [] }

end Sys2Proof.Machine
end

