-- ==== Sys2Proof/Machine/Trace.lean ====
section
/-! DEFINITION. The trace notation and its pseudo-commands (30_encoding.md R106, R107), the
operations a cycle performs (R94 to R96), and the event view of a run (43_core_cycle.md R220,
R227). -/

namespace Sys2Proof.Machine

/-- `R`: one reset cycle. -/
def cmdR : InputWord := .ports (commandWord true false false false false)
/-- `N`: one cycle without a tick. -/
def cmdN : InputWord := .ports (commandWord false false false false false)
/-- `D(m,p)`: one poll. -/
def cmdD (m p : Line) : InputWord := .ports (commandWord false true false m p)
/-- `S`: one sample tick. -/
def cmdS : InputWord := .ports (commandWord false false true false false)
/-- `B(m,p)`: both ticks in one cycle. -/
def cmdB (m p : Line) : InputWord := .ports (commandWord false true true m p)

/-- `PULSE` = `D(0,0) D(0,1)` (R107). -/
def pulseCmd : List InputWord := [cmdD false false, cmdD false true]

/-- `PULSE*n`. -/
def pulses : Nat → List InputWord
  | 0 => []
  | n + 1 => pulseCmd ++ pulses n

/-- `DIAL(n)` = `PULSE*n D(0,0) D(1,0)` (R107). -/
def dial (n : Nat) : List InputWord := pulses n ++ [cmdD false false, cmdD true false]

/-- `TONE(k)` = `S*k` (R107). -/
def toneCmd (k : Nat) : List InputWord := List.replicate k cmdS

/-- The command words among input words. -/
def commandWords (words : List InputWord) : List CommandWord :=
  words.filterMap fun
    | .ports w => some w
    | .slot _ => none
    | .outputRead => none

/-- The instruction of a poll's part. -/
def pollInstr : PollPart → Instr
  | .restIdle => .decRestIdle
  | .restEmit => .decRestEmit
  | .restDiscard => .decRestDiscard
  | .moveCount => .decMoveCount
  | .moveHold => .decMoveHold

/-- The instruction of a sample tick's part. -/
def tickInstr : TickPart → Instr
  | .finish => .synFinish
  | .gen => .synGen
  | .start => .synStart
  | .nop => .synNop

/-- The operations of a poll, in order: `DEC.SAMPLE`, then the selected part (R95). -/
def pollOperations (s : State) (w : CommandWord) : List Instr :=
  [.decSample (movingBit w) (pulseBit w),
   pollInstr (selectPoll s.dec (movingBit w) (pulseBit w))]

/-- The operation of a sample tick (R96). -/
def tickOperations (s : State) (w : CommandWord) : List Instr :=
  [tickInstr (selectTick s.syn.remainingCycles (pendingAtTick s w))]

/-- The operations one cycle performs under a command word, in order (R94 to R96). -/
def operationsOf (s : State) (w : CommandWord) : List Instr :=
  match rstBit w, tickLoBit w, tickHiBit w with
  | true, _, _ => [.cycReset]
  | false, false, false => []
  | false, true, false => pollOperations s w
  | false, false, true => tickOperations s w
  | false, true, true =>
    match s.cfg.coincidentOrder with
    | .synFirst => tickOperations s w ++ pollOperations s w
    | .decFirst => pollOperations s w ++ tickOperations s w

/-- A list of instructions performed one after the other. -/
def execAll : List Instr → State → Result
  | [], s => .next s
  | i :: rest, s => serially (exec i) (execAll rest) s

/-- The commands that stand for a command word in the event view: `N` deleted, `B(m,p)` replaced by
its two events in the order of the configuration (R227). -/
def eventWords (c : Config) (w : CommandWord) : List CommandWord :=
  match rstBit w, tickLoBit w, tickHiBit w with
  | true, _, _ => [w]
  | false, false, false => []
  | false, true, false => [w]
  | false, false, true => [w]
  | false, true, true =>
    match c.coincidentOrder with
    | .synFirst => [commandWord false false true false false,
                    commandWord false true false (movingBit w) (pulseBit w)]
    | .decFirst => [commandWord false true false (movingBit w) (pulseBit w),
                    commandWord false false true false false]

/-- A run over command words with its observation, the sequence of values written to `level` (R220);
`none` where a cycle is refused, the first one among them where the run does not begin from reset
(70_reset_and_hazards.md R272). -/
def observe : List CommandWord → State → Option (State × List Nat)
  | [], s => some (s, [])
  | w :: ws, s =>
    match perform (decodeCommand w) s with
    | .next t =>
      match observe ws t with
      | some (u, levels) => some (u, if t.out.levelWr then t.syn.level :: levels else levels)
      | none => none
    | .fault _ => none
    | .refused _ => none

end Sys2Proof.Machine
end

