-- ==== Sys2Proof/Safety.lean ====
section
/-! DEFINITION. The terms claims are stated in: the invariants of 10_state.md R45, the states in
which every table read is inside its table (20_memory.md R73), the quiescent states of R275, and the
outputs of a cycle. -/

namespace Sys2Proof.Machine

/-- R45 (a): the eleven legal slot words. -/
structure SlotLegal (r : SlotRegs) : Prop where
  empty : r.valid = false → r.digit = emptyDigit
  pending : r.valid = true → r.digit.toNat ≤ 9

/-- R45 (c) to (f): the ranges of the synthesizer's registers. -/
structure SynInRange (c : Config) (r : SynRegs) : Prop where
  cyclesLow : -1 ≤ r.remainingCycles
  cyclesHigh : r.remainingCycles ≤ c.toneTicks
  highPhase : r.highPhase < c.tableLen
  lowPhase : r.lowPhase < c.tableLen
  highStep : r.highStep < c.tableLen
  lowStep : r.lowStep < c.tableLen
  level : r.level ≤ c.ampMax

/-- The ranges of R45 (a) to (f) under an admitted configuration; (b) is the type of `pulseCount`.
They hold of the slot taken alone too. -/
structure Ranges (s : State) : Prop where
  admitted : s.cfg.admitted = true
  slot : SlotLegal s.slot
  syn : SynInRange s.cfg s.syn

/-- Every input word still to come is a command word: the machine is the assembled block, not the
slot taken alone. -/
def AssembledBlock (s : State) : Prop := ∀ w ∈ s.trace, ∃ cw, w = InputWord.ports cw

/-- The invariant of the assembled block: R45 (a) to (g), in a run that reset has begun
(70_reset_and_hazards.md R272). -/
structure Inv (s : State) : Prop where
  ranges : Ranges s
  noFault : s.slot.fault = 0#2
  begun : s.begun = true
  assembled : AssembledBlock s

/-- The next sample tick reads no table outside its index set (20_memory.md R73): the phases of a
tone in progress are inside the sine table, the digit a start would take is a decimal digit. -/
structure TablesInRange (s : State) : Prop where
  phases : 0 < s.syn.remainingCycles →
    s.syn.highPhase < s.cfg.tableLen ∧ s.syn.lowPhase < s.cfg.tableLen
  digit : s.syn.remainingCycles < 0 → s.slot.valid = true → s.slot.digit.toNat ≤ 9

/-- Nothing dialled is still on its way to the output (70_reset_and_hazards.md R275). -/
def Quiescent (s : State) : Prop :=
  s.idle = true ∧ s.pending = false ∧ s.dec.pulseCount = 0#4

/-- The thirteen registers agree (10_state.md R20). -/
def SameRegisters (s t : State) : Prop := s.slot = t.slot ∧ s.dec = t.dec ∧ s.syn = t.syn

/-- What the ports show in a cycle that holds state `s`, with its strobe and what it takes
(30_encoding.md R90 to R92): where nothing is taken, `take_digit` shows the `slot_digit` held. -/
def portsShown (s : State) (levelWr : Line) (take : Option Digit) : Outputs where
  level := s.syn.level
  levelWr := levelWr
  idle := decide (s.syn.remainingCycles < 0)
  pending := s.slot.valid
  fault := s.slot.fault
  take := take.isSome
  takeDigit := take.getD s.slot.digit

/-- What was taken in the cycle, if anything. -/
def Outputs.taken (o : Outputs) : Option Digit := if o.take then some o.takeDigit else none

/-- The number of 0-to-1 transitions in a list of samples after a first sample (41_decoder.md
R158). -/
def risingEdges : Line → List Line → Nat
  | _, [] => 0
  | prev, p :: rest => (if prev = false ∧ p = true then 1 else 0) + risingEdges p rest

/-- The samples of `pulse` that the polls of a run have taken since its last reset cycle, the latest
first (41_decoder.md R151). -/
def samplesSinceReset (ws : List CommandWord) : List Line :=
  ws.foldl (fun taken w =>
    if rstBit w then [] else if tickLoBit w then pulseBit w :: taken else taken) []

/-- The digit a rotation of `n` pulses pushes, if any (20_memory.md R65, 41_decoder.md R158). -/
def digitOfPulses (n : Nat) : Option Nat :=
  if 1 ≤ n ∧ n ≤ 9 then some n else if n = 10 then some 0 else none

/-- The slot after a rotation of `n` pulses. -/
def slotAfterRotation (n : Nat) (r : SlotRegs) : SlotRegs :=
  match digitOfPulses n with
  | some d => { r with valid := true, digit := BitVec.ofNat 4 d }
  | none => r

/-- The `k`-th sample of a tone with the given steps (42_synth.md R189). -/
def toneSample (c : Config) (highStep lowStep k : Nat) : Nat :=
  (c.sine.getD (k * highStep % c.tableLen) 0 + c.sine.getD (k * lowStep % c.tableLen) 0) / 2

/-- The same machine built with the other configuration parameter `COINCIDENT_ORDER`. -/
def withOrder (o : CoincidentOrder) (s : State) : State :=
  { s with cfg := { s.cfg with coincidentOrder := o } }

/-- As many steps as there are words, with the given input words before those it already has. It is a run
of the block where the state is a reset state or the first word is a reset cycle
(70_reset_and_hazards.md R272), and a part of a run where reset has begun it before. -/
def runOn (words : List InputWord) (s : State) : Result :=
  Sys2Proof.core.run words.length { s with trace := words ++ s.trace }

end Sys2Proof.Machine
end

