-- ==== Sys2Proof/Certificates/Slice0/Obligations.lean ====
section
/-! DEFINITION. The statements for the provers, one `def Obligations.<Name> : Prop` each, from the
numbered rules of spec/. `portsShown s levelWr take` is what the output ports and the wire
`take_digit` show in a cycle that holds state `s`; the model records it in the field `out` (log 2). -/

open Sys2Proof Sys2Proof.Machine

/-! ## Words -/

/-- R94, R97, R106 and the vectors of 95_test_vectors.md: words written out bit by bit. That a slot
word is an input word of its own kind, and how raw bits are read, is the model's choice (log 4). -/
def Obligations.SampleWordsDecode : Prop :=
  decode (.ports 0b10000#5) = .cycReset ∧ decode (.ports 0b11111#5) = .cycReset ∧
  decode (.ports 0b00000#5) = .cycNop ∧ decode (.ports 0b00011#5) = .cycNop ∧
  decode (.ports 0b01010#5) = .cycDec true false ∧
  decode (.ports 0b01001#5) = .cycDec false true ∧
  decode (.ports 0b00100#5) = .cycSyn ∧ decode (.ports 0b00111#5) = .cycSyn ∧
  decode (.ports 0b01110#5) = .cycBoth true false ∧
  decode (.ports 0b01101#5) = .cycBoth false true ∧
  decode (.slot 0b001111#6) = .slotHold ∧ decode (.slot 0b100010#6) = .slotPush 2#4 ∧
  decode (.slot 0b010000#6) = .slotTake ∧ decode (.slot 0b110110#6) = .slotPushTake 6#4 ∧
  decodeTableWord 8 0x29 = some (.slotPush 9#4) ∧ decodeTableWord 8 0x40 = none

/-- Encoding and decoding agree: every operation that has words of its own is read back from its
word with every operand, a part's word is read as the cycle that performs it, and decoding a word
loses none of its row's fixed bits and none of its operand bits (R94, R97, R102, R108). Slot words as
input words are the model's choice (log 4). -/
def Obligations.DecodeOfEncodeIsTheInstruction : Prop :=
  (∀ i : Instr, i.cycleOf = i → decode (encode i) = i) ∧
  (∀ i : Instr, decode (encode i) = i.cycleOf) ∧
  (∀ w : InputWord, (encode (decode w)).bits.1 = w.bits.1 ∧
    (encode (decode w)).bits.2 &&& ((decode w).row.mask ||| (decode w).operandMask) =
      w.bits.2 &&& ((decode w).row.mask ||| (decode w).operandMask))

/-- R94, R97: a word decodes to an operation of a row exactly when it has the row's width and the
row's match under the row's mask, so the patterns are disjoint and cover every word. Slot words as input
words are the model's choice (log 4). -/
def Obligations.WordMatchesItsRowExactly : Prop :=
  ∀ (i : Instr) (w : InputWord), i.cycleOf = i →
    ((decode w).row = i.row ↔
      w.bits.1 = i.row.width ∧ w.bits.2 &&& i.row.mask = i.row.value)

/-- R94: the operation of every command word by its bits, and R91: the input lines are read only in a
cycle with `rst = 0` and `tick_lo = 1`. -/
def Obligations.CommandWordSelectsItsOperation : Prop :=
  (∀ w : CommandWord, decodeCommand w =
    if w.getLsbD 4 = true then .cycReset
    else if w.getLsbD 3 = true then
      if w.getLsbD 2 = true then .cycBoth (w.getLsbD 1) (w.getLsbD 0)
      else .cycDec (w.getLsbD 1) (w.getLsbD 0)
    else if w.getLsbD 2 = true then .cycSyn else .cycNop) ∧
  (∀ rst lo hi m p m' p' : Line, rst = true ∨ lo = false →
    decodeCommand (commandWord rst lo hi m p) = decodeCommand (commandWord rst lo hi m' p'))

/-! ## The step -/

/-- A step performs the next input word's operation on the state with the word consumed, once reset has
begun the run or where the operation is the reset itself; before the first reset every other word is
refused (R272); the run ends where no word is left (R275). That the words stand in State is the model's
choice (log 3), and so is the field that says whether reset has been applied (log 12). -/
def Obligations.StepRunsTheNextWord : Prop :=
  ∀ s : State, (s.trace = [] → step s = .refused .traceEnded) ∧
    ∀ w rest, s.trace = w :: rest →
      (s.begun = true ∨ decode w = .cycReset →
        step s = exec (decode w) { s with trace := rest }) ∧
      (s.begun = false → decode w ≠ .cycReset → step s = .refused .beforeReset)

/-- The table word placed for the next step is the one the step runs, on the state as it was, in a run
that reset has begun or begins (R272). The placing is the model's choice (log 3, log 4). -/
def Obligations.PlacedTableWordRuns : Prop :=
  ∀ (s : State) (nbits w : Nat) (i : Instr), decodeTableWord nbits w = some i →
    s.begun = true ∨ i = .cycReset → step (s.withFetchWord nbits w) = exec i s

/-! ## Reset -/

/-- R44: the reset values of the thirteen registers and the outputs after reset, under every
configuration. That `State.reset` is the reset state under `Config.ref` is the model's choice (log 9;
the configuration in State is log 1), and so are the record of the outputs (log 2) and the field that
says that reset has been applied (log 12). -/
def Obligations.ResetStateHoldsTheStatedValues : Prop :=
  State.reset.cfg = Config.ref ∧
  ∀ c : Config,
    (State.resetWith c).slot = { valid := false, digit := 15#4, fault := 0#2 } ∧
    (State.resetWith c).dec = { movingSignal := false, pulseSignal := false,
                                previousPulseSignal := false, pulseCount := 0#4 } ∧
    (State.resetWith c).syn = { remainingCycles := -1, highPhase := 0, lowPhase := 0,
                                highStep := 0, lowStep := 0, level := c.silenceLevel } ∧
    (State.resetWith c).out = { level := c.silenceLevel, levelWr := false, idle := true,
                                pending := false, fault := 0#2, take := false,
                                takeDigit := 15#4 } ∧
    (State.resetWith c).begun = true ∧
    State.reset = State.resetWith Config.ref

/-- R221: `CYC.RESET` gives every register its reset value in any state, without a strobe, and every
word with `rst = 1` is that operation. The field that says that reset has been applied is the model's
choice (log 12). -/
def Obligations.CycResetGivesTheResetRegisters : Prop :=
  (∀ s : State, s.cfg.admitted = true → exec .cycReset s = .next
    { s with begun := true,
             slot := { valid := false, digit := 15#4, fault := 0#2 },
             dec := { movingSignal := false, pulseSignal := false, previousPulseSignal := false,
                      pulseCount := 0#4 },
             syn := { remainingCycles := -1, highPhase := 0, lowPhase := 0, highStep := 0,
                      lowStep := 0, level := s.cfg.silenceLevel },
             out := portsShown s false none }) ∧
  ∀ l h m p : Line, decodeCommand (commandWord true l h m p) = .cycReset

/-! ## Whole cycles -/

/-- R222, R135, R131: `CYC.NOP`, `SLOT.HOLD` and `SLOT.HASPENDING` with their words, whose other bits
are ignored; they complete and change no register, and the output `pending` is the valid bit. That
`SLOT.HASPENDING` has an input word, the output read, is the model's choice (log 4): R97 gives it no
encoding. -/
def Obligations.QuietOperationsChangeNoRegister : Prop :=
  (∀ m p : Line, decodeCommand (commandWord false false false m p) = .cycNop) ∧
  (∀ d : Digit, decode (.slot (slotCommandWord false false d)) = .slotHold) ∧
  decode .outputRead = .slotHasPending ∧
  (∀ (s : State) (m p : Line),
    decodeSlotCommand (slotCommandOf s (commandWord false false false m p)) = .slotHold) ∧
  ∀ (i : Instr) (s : State), i = .cycNop ∨ i = .slotHold ∨ i = .slotHasPending →
    s.cfg.admitted = true → exec i s = .next { s with out := portsShown s false none } ∧
      (portsShown s false none).pending = s.slot.valid

/-- R223: `CYC.DEC` performs one poll; the slot command is a push of the count's digit when the part
is `DEC.REST.EMIT` and a hold otherwise; the synthesizer keeps its registers; no strobe. -/
def Obligations.CycDecPerformsOnePoll : Prop :=
  (∀ m p : Line, decodeCommand (commandWord false true false m p) = .cycDec m p) ∧
  ∀ (s : State) (m p : Line), s.cfg.admitted = true →
    ∃ t, exec (.cycDec m p) s = .next t ∧ exec (.decTick m p) s = .next t ∧
      t.syn = s.syn ∧ t.cfg = s.cfg ∧ t.trace = s.trace ∧ t.out = portsShown s false none ∧
      (selectPoll s.dec m p = .restEmit →
        ∃ d u, romPc2Digit s.dec.pulseCount = some d ∧
          decodeSlotCommand (slotCommandOf s (commandWord false true false m p)) = .slotPush d ∧
          exec (.slotPush d) s = .next u ∧ t.slot = u.slot) ∧
      (selectPoll s.dec m p ≠ .restEmit →
        decodeSlotCommand (slotCommandOf s (commandWord false true false m p)) = .slotHold ∧
        t.slot = s.slot)

/-- R225: `CYC.SYN` performs one sample tick; the slot command is a take when the part is `SYN.START`
and a hold otherwise; the decoder keeps its registers; the strobe is 1 exactly when the part is
`SYN.FINISH` or `SYN.GEN`. -/
def Obligations.CycSynPerformsOneSampleTick : Prop :=
  (∀ m p : Line, decodeCommand (commandWord false false true m p) = .cycSyn) ∧
  ∀ s : State, s.cfg.admitted = true → TablesInRange s →
    ∃ t, exec .cycSyn s = .next t ∧ exec .synTick s = .next t ∧
      t.dec = s.dec ∧ t.cfg = s.cfg ∧ t.trace = s.trace ∧
      (selectTick s.syn.remainingCycles s.slot.valid = .start →
        (∀ m p : Line, decodeSlotCommand
          (slotCommandOf s (commandWord false false true m p)) = .slotTake) ∧
        ∃ u, exec .slotTake s = .next u ∧ t.slot = u.slot ∧ t.out = u.out) ∧
      (selectTick s.syn.remainingCycles s.slot.valid ≠ .start →
        (∀ m p : Line, decodeSlotCommand
          (slotCommandOf s (commandWord false false true m p)) = .slotHold) ∧
        t.slot = s.slot ∧ t.out.take = false ∧ t.out.takeDigit = s.slot.digit) ∧
      (t.out.levelWr = true ↔
        selectTick s.syn.remainingCycles s.slot.valid = .finish ∨
        selectTick s.syn.remainingCycles s.slot.valid = .gen)

/-- R224: a cycle with both ticks is the two events one after the other in the order
`COINCIDENT_ORDER` names, and its strobe is the sample tick's. -/
def Obligations.CycBothIsTheTwoEventsInOrder : Prop :=
  ∀ (s : State) (m p : Line), s.cfg.admitted = true → TablesInRange s →
    (s.cfg.coincidentOrder = .synFirst →
      ∃ u v t, exec .cycSyn s = .next u ∧ exec (.cycDec m p) u = .next v ∧
        exec (.cycBoth m p) s = .next t ∧ SameRegisters t v ∧ t.out = u.out ∧
        t.cfg = s.cfg ∧ t.trace = s.trace) ∧
    (s.cfg.coincidentOrder = .decFirst →
      ∃ u v t, exec (.cycDec m p) s = .next u ∧ exec .cycSyn u = .next v ∧
        exec (.cycBoth m p) s = .next t ∧ SameRegisters t v ∧
        t.out = portsShown s v.out.levelWr v.out.taken ∧
        t.cfg = s.cfg ∧ t.trace = s.trace)

/-- R224, R292: the two orders give the same registers and outputs unless the poll is
`DEC.REST.EMIT` and the synthesizer is idle. -/
def Obligations.OrdersAgreeUnlessAPushMeetsIdle : Prop :=
  ∀ (s : State) (m p : Line), s.cfg.admitted = true → TablesInRange s →
    ¬ (selectPoll s.dec m p = .restEmit ∧ s.syn.remainingCycles < 0) →
    ∃ t u, exec (.cycBoth m p) (withOrder .synFirst s) = .next t ∧
      exec (.cycBoth m p) (withOrder .decFirst s) = .next u ∧
      SameRegisters t u ∧ t.out = u.out

/-- R224, corner case: a push meets an idle synthesizer. Under `SYN_FIRST` the old pending digit, if
any, is started (its steps loaded, both phases 0, `level` kept) and the new digit stays pending; under
`DEC_FIRST` the new digit is started, an old one is lost, and the slot ends empty. -/
def Obligations.PushMeetsAnIdleSynthesizer : Prop :=
  ∀ (s : State) (p : Line) (d : Nat), s.cfg.admitted = true → TablesInRange s →
    s.syn.remainingCycles < 0 → digitOfPulses s.dec.pulseCount.toNat = some d →
    (∃ t, exec (.cycBoth true p) (withOrder .synFirst s) = .next t ∧
      t.slot = { s.slot with valid := true, digit := BitVec.ofNat 4 d } ∧
      t.dec.pulseCount = 0#4 ∧
      (s.slot.valid = true → ∃ e, s.cfg.digitFreq[s.slot.digit.toNat]? = some e ∧
        t.syn = { s.syn with remainingCycles := s.cfg.toneTicks, highPhase := 0, lowPhase := 0,
                             highStep := s.cfg.phaseStep e.high,
                             lowStep := s.cfg.phaseStep e.low } ∧
        t.out = portsShown s false (some s.slot.digit)) ∧
      (s.slot.valid = false → t.syn = s.syn ∧ t.out = portsShown s false none)) ∧
    (∃ t e, exec (.cycBoth true p) (withOrder .decFirst s) = .next t ∧
      t.slot = { s.slot with valid := false, digit := 15#4 } ∧
      t.dec.pulseCount = 0#4 ∧ s.cfg.digitFreq[d]? = some e ∧
      t.syn = { s.syn with remainingCycles := s.cfg.toneTicks, highPhase := 0, lowPhase := 0,
                           highStep := s.cfg.phaseStep e.high,
                           lowStep := s.cfg.phaseStep e.low } ∧
      t.out = portsShown s false (some (BitVec.ofNat 4 d)))

/-- R94 to R96: a cycle is its operations performed one after the other: after `DEC.SAMPLE` the part
the old state selects, and the part of the sample tick, in the order of the configuration. -/
def Obligations.CycleIsItsOperations : Prop :=
  ∀ (s : State) (w : CommandWord), s.cfg.admitted = true →
    (∀ t, exec (decodeCommand w) s = .next t →
      ∃ u, execAll (operationsOf s w) s = .next u ∧ SameRegisters t u) ∧
    (∀ u, execAll (operationsOf s w) s = .next u →
      ∃ t, exec (decodeCommand w) s = .next t ∧ SameRegisters t u)

/-- R97, R130: the patterns of the slot command, what drives its bits in the assembled block, and that
in every cycle with `rst = 0` the slot does exactly what the slot command of the cycle says. -/
def Obligations.SlotFollowsItsCommand : Prop :=
  (∀ d : Digit, decode (.slot (slotCommandWord false false d)) = .slotHold ∧
    decode (.slot (slotCommandWord true false d)) = .slotPush d ∧
    decode (.slot (slotCommandWord false true d)) = .slotTake ∧
    decode (.slot (slotCommandWord true true d)) = .slotPushTake d) ∧
  (∀ (s : State) (w : CommandWord),
    (pushBit (slotCommandOf s w) = true ↔ rstBit w = false ∧ tickLoBit w = true ∧
      selectPoll s.dec (movingBit w) (pulseBit w) = .restEmit) ∧
    (pushBit (slotCommandOf s w) = true →
      romPc2Digit s.dec.pulseCount = some (pushDigitField (slotCommandOf s w))) ∧
    (takeBit (slotCommandOf s w) = true ↔ rstBit w = false ∧ tickHiBit w = true ∧
      selectTick s.syn.remainingCycles (pendingAtTick s w) = .start)) ∧
  ∀ (s t : State) (w : CommandWord), rstBit w = false →
    exec (decodeCommand w) s = .next t →
    ∃ u, exec (decodeSlotCommand (slotCommandOf s w)) s = .next u ∧
      t.slot = u.slot ∧ t.out.take = u.out.take ∧ t.out.takeDigit = u.out.takeDigit

/-- R227: the run over command words and the run over events, with every `N` deleted and every `B`
replaced by its two events, end in the same registers and write the same levels, in a run that reset has
begun (R272). -/
def Obligations.RunAgreesWithItsEventView : Prop :=
  ∀ (s : State) (ws : List CommandWord), s.cfg.admitted = true → s.begun = true →
    ((observe ws s).map fun r => (r.1.slot, r.1.dec, r.1.syn, r.1.cfg, r.2)) =
      ((observe (ws.flatMap (eventWords s.cfg)) s).map
        fun r => (r.1.slot, r.1.dec, r.1.syn, r.1.cfg, r.2))

/-! ## The slot -/

/-- R132: a decimal digit is stored, overwriting any unread value; a code in `10..15` is ignored and
raises `FAULT_BAD_DIGIT`. Nothing else changes. -/
def Obligations.SlotPushStoresOrRaises : Prop :=
  (∀ d : Digit, decode (.slot (slotCommandWord true false d)) = .slotPush d) ∧
  ∀ (s : State) (d : Digit), s.cfg.admitted = true →
    (d.toNat ≤ 9 → exec (.slotPush d) s = .next
      { s with slot := { valid := true, digit := d, fault := s.slot.fault },
               out := portsShown s false none }) ∧
    (10 ≤ d.toNat → exec (.slotPush d) s = .next
      { s with slot := { s.slot with fault := s.slot.fault ||| 0b10#2 },
               out := portsShown s false none })

/-- R133: a take returns the held digit and empties the slot; on an empty slot it raises
`FAULT_EMPTY_TAKE`. Nothing else changes. -/
def Obligations.SlotTakeReturnsAndEmpties : Prop :=
  (∀ d : Digit, decode (.slot (slotCommandWord false true d)) = .slotTake) ∧
  ∀ s : State, s.cfg.admitted = true →
    (s.slot.valid = true → exec .slotTake s = .next
      { s with slot := { valid := false, digit := 15#4, fault := s.slot.fault },
               out := portsShown s false (some s.slot.digit) }) ∧
    (s.slot.valid = false → exec .slotTake s = .next
      { s with slot := { valid := false, digit := 15#4, fault := s.slot.fault ||| 0b01#2 },
               out := portsShown s false (some s.slot.digit) })

/-- R134: under `SYN_FIRST` the take first, then the push, which wins over the clear; under
`DEC_FIRST` the push first, then the take, which sees the pushed digit. -/
def Obligations.SlotPushTakeIsSerial : Prop :=
  (∀ d : Digit, decode (.slot (slotCommandWord true true d)) = .slotPushTake d) ∧
  ∀ (s : State) (d : Digit), s.cfg.admitted = true →
    (s.cfg.coincidentOrder = .synFirst → exec (.slotPushTake d) s = .next
      { s with slot :=
          let f := if s.slot.valid = true then s.slot.fault else s.slot.fault ||| 0b01#2
          if d.toNat ≤ 9 then { valid := true, digit := d, fault := f }
          else { valid := false, digit := 15#4, fault := f ||| 0b10#2 },
               out := portsShown s false (some s.slot.digit) }) ∧
    (s.cfg.coincidentOrder = .decFirst → exec (.slotPushTake d) s = .next
      { s with slot :=
          { valid := false, digit := 15#4, fault :=
              if d.toNat ≤ 9 then s.slot.fault
              else if s.slot.valid = true then s.slot.fault ||| 0b10#2
              else s.slot.fault ||| 0b10#2 ||| 0b01#2 },
               out := portsShown s false (some (if d.toNat ≤ 9 then d else s.slot.digit)) })

/-- R136: of two pushes without a take between them exactly the second digit is read, and a further
take returns 15 with a fault. -/
def Obligations.SecondPushOverwritesTheFirst : Prop :=
  ∀ (s : State) (d e : Digit), s.cfg.admitted = true → d.toNat ≤ 9 → e.toNat ≤ 9 →
    ∃ a b c f, exec (.slotPush d) s = .next a ∧ exec (.slotPush e) a = .next b ∧
      exec .slotTake b = .next c ∧ exec .slotTake c = .next f ∧
      b.slot = { valid := true, digit := e, fault := s.slot.fault } ∧
      c.out.taken = some e ∧
      c.slot = { valid := false, digit := 15#4, fault := s.slot.fault } ∧
      f.out.taken = some 15#4 ∧ f.faultSet .emptyTake = true

/-! ## The decoder -/

/-- R151: sampling records both lines and moves the old sample; nothing else changes. That the part is
performed on its own is the model's choice (log 5). -/
def Obligations.DecSampleRecordsTheLines : Prop :=
  ∀ (s : State) (m p : Line), s.cfg.admitted = true → exec (.decSample m p) s = .next
    { s with dec := { movingSignal := m, pulseSignal := p,
                      previousPulseSignal := s.dec.pulseSignal,
                      pulseCount := s.dec.pulseCount },
             out := portsShown s false none }

/-- R150: one poll. At rest a count in `1..10` is pushed as its digit, and any count is cleared;
moving, a rising edge counts up to 15; all reads are of old values. The cycles that perform it are
`CYC.DEC` and `CYC.BOTH`. -/
def Obligations.DecTickIsOnePoll : Prop :=
  (∀ m p : Line, decodeCommand (commandWord false true false m p) = .cycDec m p ∧
    decodeCommand (commandWord false true true m p) = .cycBoth m p) ∧
  (∀ (s t u : State) (m p : Line), exec (.decTick m p) s = .next t →
    exec (.cycDec m p) s = .next t ∧ (exec (.cycBoth m p) s = .next u → u.dec = t.dec)) ∧
  ∀ (s : State) (m p : Line), s.cfg.admitted = true → exec (.decTick m p) s = .next
    { s with
      slot :=
        if m = true ∧ 1 ≤ s.dec.pulseCount.toNat ∧ s.dec.pulseCount.toNat ≤ 10 then
          { valid := true
            digit := if s.dec.pulseCount = 10#4 then 0#4 else s.dec.pulseCount
            fault := s.slot.fault }
        else s.slot
      dec :=
        { movingSignal := m
          pulseSignal := p
          previousPulseSignal := s.dec.pulseSignal
          pulseCount :=
            if m = true then 0#4
            else if s.dec.pulseSignal = false ∧ p = true then
              BitVec.ofNat 4 (min (s.dec.pulseCount.toNat + 1) 15)
            else s.dec.pulseCount }
      out := portsShown s false none }

/-- R153: a valid count is pushed as its digit and cleared. The part on its own: log 5. -/
def Obligations.DecRestEmitPushesTheDigit : Prop :=
  ∀ s : State, s.cfg.admitted = true → 1 ≤ s.dec.pulseCount.toNat →
    s.dec.pulseCount.toNat ≤ 10 → exec .decRestEmit s = .next
    { s with slot := { valid := true
                       digit := if s.dec.pulseCount = 10#4 then 0#4 else s.dec.pulseCount
                       fault := s.slot.fault },
             dec := { s.dec with pulseCount := 0#4 },
             out := portsShown s false none }

/-- R154, R155: an out-of-range count is cleared and nothing is pushed; at rest with nothing counted
nothing changes. The parts on their own: log 5. -/
def Obligations.DecRestDiscardAndRestIdle : Prop :=
  ∀ s : State, s.cfg.admitted = true →
    (11 ≤ s.dec.pulseCount.toNat → exec .decRestDiscard s = .next
      { s with dec := { s.dec with pulseCount := 0#4 }, out := portsShown s false none }) ∧
    (s.dec.pulseCount = 0#4 → exec .decRestIdle s = .next
      { s with out := portsShown s false none })

/-- R156, R157: a pulse is counted with saturation at 15; without an edge the count is kept.
The parts on their own: log 5. -/
def Obligations.DecMoveCountAndMoveHold : Prop :=
  ∀ s : State, s.cfg.admitted = true →
    exec .decMoveCount s = .next
      { s with dec := { s.dec with
                 pulseCount := if s.dec.pulseCount = 15#4 then 15#4 else s.dec.pulseCount + 1#4 },
               out := portsShown s false none } ∧
    exec .decMoveHold s = .next { s with out := portsShown s false none }

/-- R158: a rotation with exactly `n` rising edges, then a poll at rest, pushes the digit of `n` if
`n` is in `1..10` and nothing otherwise, and leaves the count 0, whatever the sample before it; a poll
at rest with nothing counted changes the sampled lines only. -/
def Obligations.RotationPushesItsDigit : Prop :=
  (∀ (s : State) (q : Line), s.cfg.admitted = true → s.dec.pulseCount = 0#4 →
    exec (.cycDec true q) s = .next
      { s with dec := { movingSignal := true, pulseSignal := q,
                        previousPulseSignal := s.dec.pulseSignal, pulseCount := 0#4 },
               out := portsShown s false none }) ∧
  ∀ (s : State) (samples : List Line) (q : Line), s.cfg.admitted = true → s.begun = true →
    s.dec.pulseCount = 0#4 →
    ∃ t, runOn (samples.map (cmdD false) ++ [cmdD true q]) s = .next t ∧
      t.dec.pulseCount = 0#4 ∧
      t.slot = slotAfterRotation (risingEdges s.dec.pulseSignal samples) s.slot ∧
      t.syn = s.syn ∧ t.cfg = s.cfg ∧ t.trace = s.trace

/-- R107: `DIAL(n)` from `pulseCount = 0` ends with the digit of `n` pushed, or nothing pushed, and
`pulseCount = 0`. -/
def Obligations.DialPushesItsDigit : Prop :=
  ∀ (s : State) (n : Nat), s.cfg.admitted = true → s.begun = true → s.dec.pulseCount = 0#4 →
    ∃ t, runOn (dial n) s = .next t ∧ t.dec.pulseCount = 0#4 ∧
      t.slot = slotAfterRotation n s.slot ∧ t.syn = s.syn ∧ t.trace = s.trace

/-! ## The synthesizer -/

/-- R180, R182, R183, R186, R187: one sample tick by the class of `remainingCycles`: silence, one
sample, a start, or nothing; the cycles that perform it are `CYC.SYN` and `CYC.BOTH`. -/
def Obligations.SynTickIsOneSampleTick : Prop :=
  (∀ m p : Line, decodeCommand (commandWord false false true m p) = .cycSyn ∧
    decodeCommand (commandWord false true true m p) = .cycBoth m p) ∧
  (∀ (s t u : State) (m p : Line), exec .synTick s = .next t →
    exec .cycSyn s = .next t ∧
    (s.cfg.coincidentOrder = .synFirst → exec (.cycBoth m p) s = .next u →
      u.syn = t.syn ∧ u.out = t.out)) ∧
  ∀ s : State, s.cfg.admitted = true →
    (s.syn.remainingCycles = 0 → exec .synTick s = .next
      { s with syn := { s.syn with remainingCycles := -1, level := s.cfg.silenceLevel },
               out := portsShown s true none }) ∧
    (0 < s.syn.remainingCycles → s.syn.highPhase < s.cfg.tableLen →
      s.syn.lowPhase < s.cfg.tableLen →
      ∃ a b, s.cfg.sine[s.syn.highPhase]? = some a ∧ s.cfg.sine[s.syn.lowPhase]? = some b ∧
      exec .synTick s = .next
        { s with
          syn := { s.syn with
            level := mean a b
            highPhase := advance s.cfg s.syn.highPhase s.syn.highStep
            lowPhase := advance s.cfg s.syn.lowPhase s.syn.lowStep
            remainingCycles := s.syn.remainingCycles - 1 }
          out := portsShown s true none }) ∧
    (s.syn.remainingCycles < 0 → s.slot.valid = true → s.slot.digit.toNat ≤ 9 →
      ∃ e, s.cfg.digitFreq[s.slot.digit.toNat]? = some e ∧ exec .synTick s = .next
        { s with slot := { valid := false, digit := 15#4, fault := s.slot.fault },
                 syn := { remainingCycles := s.cfg.toneTicks, highPhase := 0, lowPhase := 0,
                          highStep := s.cfg.phaseStep e.high, lowStep := s.cfg.phaseStep e.low,
                          level := s.syn.level },
                 out := portsShown s false (some s.slot.digit) }) ∧
    (s.syn.remainingCycles < 0 → s.slot.valid = false → exec .synTick s = .next
      { s with out := portsShown s false none })

/-- R180, R96: a sample tick is the part its old state selects, performed on its own (log 5). -/
def Obligations.SynTickPerformsTheSelectedPart : Prop :=
  ∀ s : State, s.cfg.admitted = true →
    (s.syn.remainingCycles = 0 → exec .synTick s = exec .synFinish s) ∧
    (0 < s.syn.remainingCycles → exec .synTick s = exec .synGen s) ∧
    (s.syn.remainingCycles < 0 → s.slot.valid = true → exec .synTick s = exec .synStart s) ∧
    (s.syn.remainingCycles < 0 → s.slot.valid = false → exec .synTick s = exec .synNop s)

/-- R182: silence is written and the synthesizer is idle; phases, steps and the slot are kept.
The part on its own: log 5. -/
def Obligations.SynFinishSilences : Prop :=
  ∀ s : State, s.cfg.admitted = true → s.syn.remainingCycles = 0 → exec .synFinish s = .next
    { s with syn := { s.syn with remainingCycles := -1, level := s.cfg.silenceLevel },
             out := portsShown s true none }

/-- R183, R184, R185: one sample, the truncated mean of two table entries at the old phases; both
phases advanced with one conditional subtraction; one tick fewer. The part on its own: log 5. -/
def Obligations.SynGenWritesOneSample : Prop :=
  ∀ s : State, s.cfg.admitted = true → 0 < s.syn.remainingCycles →
    s.syn.highPhase < s.cfg.tableLen → s.syn.lowPhase < s.cfg.tableLen →
    ∃ a b, s.cfg.sine[s.syn.highPhase]? = some a ∧ s.cfg.sine[s.syn.lowPhase]? = some b ∧
    exec .synGen s = .next
      { s with
        syn := { s.syn with
          level := (a + b) / 2
          highPhase :=
            if s.syn.highPhase + s.syn.highStep > s.cfg.tableLen - 1 then
              s.syn.highPhase + s.syn.highStep - s.cfg.tableLen
            else s.syn.highPhase + s.syn.highStep
          lowPhase :=
            if s.syn.lowPhase + s.syn.lowStep > s.cfg.tableLen - 1 then
              s.syn.lowPhase + s.syn.lowStep - s.cfg.tableLen
            else s.syn.lowPhase + s.syn.lowStep
          remainingCycles := s.syn.remainingCycles - 1 }
        out := portsShown s true none }

/-- R186: the pending digit is taken, its two steps loaded, both phases 0, the counter loaded; `level`
is kept. The part on its own: log 5. -/
def Obligations.SynStartLoadsTheTone : Prop :=
  ∀ s : State, s.cfg.admitted = true → s.syn.remainingCycles < 0 → s.slot.valid = true →
    s.slot.digit.toNat ≤ 9 →
    ∃ e, s.cfg.digitFreq[s.slot.digit.toNat]? = some e ∧ exec .synStart s = .next
      { s with slot := { valid := false, digit := 15#4, fault := s.slot.fault },
               syn := { remainingCycles := s.cfg.toneTicks, highPhase := 0, lowPhase := 0,
                        highStep := s.cfg.phaseStep e.high, lowStep := s.cfg.phaseStep e.low,
                        level := s.syn.level },
               out := portsShown s false (some s.slot.digit) }

/-- R187: idle with nothing pending, every register keeps its value. The part on its own: log 5. -/
def Obligations.SynNopKeepsEveryRegister : Prop :=
  ∀ s : State, s.cfg.admitted = true → s.syn.remainingCycles < 0 → s.slot.valid = false →
    exec .synNop s = .next { s with out := portsShown s false none }

/-- R181: the transitions of the control state, that nothing but reset leaves a tone, and that a cycle
without `tick_hi` keeps the control state. -/
def Obligations.ToneControlTransitions : Prop :=
  (∀ s t : State, exec .synTick s = .next t →
    (s.syn.remainingCycles < 0 → s.slot.valid = false →
      t.syn.remainingCycles = s.syn.remainingCycles) ∧
    (s.syn.remainingCycles < 0 → s.slot.valid = true →
      t.syn.remainingCycles = s.cfg.toneTicks) ∧
    (0 < s.syn.remainingCycles → t.syn.remainingCycles = s.syn.remainingCycles - 1) ∧
    (s.syn.remainingCycles = 0 → t.syn.remainingCycles = -1)) ∧
  (∀ (i : Instr) (s t : State), i ≠ .cycReset → exec i s = .next t →
    0 < s.syn.remainingCycles → t.syn.remainingCycles = s.syn.remainingCycles ∨
      t.syn.remainingCycles = s.syn.remainingCycles - 1) ∧
  (∀ (w : CommandWord) (s t : State), rstBit w = false → tickHiBit w = false →
    exec (decodeCommand w) s = .next t → t.syn.remainingCycles = s.syn.remainingCycles)

/-- R190: during a tone the sample tick does not look at the slot: any slot contents wait unchanged
and the synthesizer does the same. -/
def Obligations.DigitPushedDuringAToneWaits : Prop :=
  ∀ (s t : State) (r : SlotRegs), 0 ≤ s.syn.remainingCycles → exec .synTick s = .next t →
    ∃ u, exec .synTick { s with slot := r } = .next u ∧ u.slot = r ∧ t.slot = s.slot ∧
      u.syn = t.syn ∧ u.out.levelWr = t.out.levelWr

/-- R184, R185: the adders are exact at `w + 1` bits; the advance is the sum modulo the table length,
and where the table length is `2^PHW` it is the sum at `PHW` bits with the carry dropped. -/
def Obligations.AddersAreExactAtTheirWidths : Prop :=
  (∀ a b w : Nat, a < 2 ^ w → b < 2 ^ w → mean a b = (a + b) / 2 ∧
    mean a b = ((BitVec.ofNat (w + 1) a + BitVec.ofNat (w + 1) b) >>> 1).toNat) ∧
  (∀ (c : Config) (a b : Nat), a ≤ c.ampMax → b ≤ c.ampMax → mean a b ≤ c.ampMax) ∧
  (∀ (c : Config) (ph st : Nat), c.admitted = true → ph < c.tableLen → st < c.tableLen →
    advance c ph st = (if ph + st > c.tableLen - 1 then ph + st - c.tableLen else ph + st) ∧
    ph + st < 2 ^ (c.phw + 1) ∧ advance c ph st < c.tableLen ∧ advance c ph st = (ph + st) % c.tableLen ∧
    (c.tableLen = 2 ^ c.phw →
      advance c ph st = (BitVec.ofNat c.phw ph + BitVec.ofNat c.phw st).toNat))

/-- R189: from an idle synthesizer with a digit pending, after the starting tick and `k` more the
phases stand at `k` times their steps modulo the table length, and the `k`-th sample written is the
mean of the two entries at `k - 1` times the steps. -/
def Obligations.ToneFollowsItsClosedForm : Prop :=
  ∀ (s : State) (e : TonePair) (k : Nat), s.cfg.admitted = true → s.begun = true → s.syn.remainingCycles < 0 →
    s.slot.valid = true → s.cfg.digitFreq[s.slot.digit.toNat]? = some e →
    k ≤ s.cfg.toneTicks →
    ∃ t, runOn (toneCmd (k + 1)) s = .next t ∧
      t.syn.remainingCycles = s.cfg.toneTicks - k ∧
      t.syn.highStep = s.cfg.phaseStep e.high ∧ t.syn.lowStep = s.cfg.phaseStep e.low ∧
      t.syn.highPhase = k * s.cfg.phaseStep e.high % s.cfg.tableLen ∧
      t.syn.lowPhase = k * s.cfg.phaseStep e.low % s.cfg.tableLen ∧
      (k = 0 → t.syn.level = s.syn.level ∧ t.out.levelWr = false) ∧
      (0 < k → t.out.levelWr = true ∧
        t.syn.level = toneSample s.cfg (s.cfg.phaseStep e.high) (s.cfg.phaseStep e.low) (k - 1)) ∧
      t.slot.valid = false ∧ t.slot.digit = 15#4 ∧ t.dec = s.dec ∧ t.trace = s.trace

/-- R189, R188: the `k`-th sample tick after the start finds the phases at `k` times the steps; over the
`TONE_TICKS + 2` ticks of one digit the levels written are the samples in closed form, then
`SILENCE_LEVEL`; the last tick leaves the synthesizer idle and the slot empty. -/
def Obligations.ToneWritesItsSamplesThenSilence : Prop :=
  ∀ (s : State) (e : TonePair), s.cfg.admitted = true → s.begun = true → s.syn.remainingCycles < 0 →
    s.slot.valid = true → s.cfg.digitFreq[s.slot.digit.toNat]? = some e →
    (∀ k < s.cfg.toneTicks, ∃ t, runOn (toneCmd (k + 1)) s = .next t ∧
      t.syn.highPhase = k * s.cfg.phaseStep e.high % s.cfg.tableLen ∧
      t.syn.lowPhase = k * s.cfg.phaseStep e.low % s.cfg.tableLen) ∧
    ∃ t, observe (List.replicate (s.cfg.toneTicks + 2)
        (commandWord false false true false false)) s =
      some (t, (List.range s.cfg.toneTicks).map
        (toneSample s.cfg (s.cfg.phaseStep e.high) (s.cfg.phaseStep e.low)) ++
          [s.cfg.silenceLevel]) ∧
      t.syn.remainingCycles = -1 ∧ t.idle = true ∧ t.syn.level = s.cfg.silenceLevel ∧
      t.pending = false ∧ t.dec = s.dec ∧ t.trace = s.trace

/-- R228: from reset, `DIAL(n)` of a valid count leaves its digit `d` pending; one sample tick takes it
and schedules the tone; over the whole run the levels written are the samples of `d` in closed form
(R189), then `SILENCE_LEVEL`; the block is then quiescent again (R275) and the slot empty. -/
def Obligations.DialledDigitSoundsAndTheBlockReturnsToIdle : Prop :=
  ∀ (c : Config) (n d : Nat), c.admitted = true → digitOfPulses n = some d →
    ∃ e a b t, c.digitFreq[d]? = some e ∧
      runOn (dial n) (State.resetWith c) = .next a ∧
      a.slot = { valid := true, digit := BitVec.ofNat 4 d, fault := 0#2 } ∧ a.idle = true ∧
      runOn (dial n ++ [cmdS]) (State.resetWith c) = .next b ∧
      b.slot = { valid := false, digit := 15#4, fault := 0#2 } ∧
      b.syn.remainingCycles = c.toneTicks ∧
      runOn (dial n ++ toneCmd (c.toneTicks + 2)) (State.resetWith c) = .next t ∧
      observe (commandWords (dial n ++ toneCmd (c.toneTicks + 2))) (State.resetWith c) =
        some (t, (List.range c.toneTicks).map
          (toneSample c (c.phaseStep e.high) (c.phaseStep e.low)) ++ [c.silenceLevel]) ∧
      Quiescent t ∧ t.slot = { valid := false, digit := 15#4, fault := 0#2 } ∧
      t.syn.level = c.silenceLevel ∧ t.out.levelWr = true

/-! ## Tables and widths -/

/-- R65: the pulse-count table. -/
def Obligations.PulseCountTable : Prop :=
  ∀ n : BitVec 4, romPc2Digit n =
    if n = 10#4 then some 0#4 else if 1 ≤ n.toNat ∧ n.toNat ≤ 9 then some n else none

/-- R64, R69, R5, R6: the checks on the reference configuration and its tables, whose literals are the
spec's own choices (log 9). -/
def Obligations.ReferenceTablesPassTheirChecks : Prop :=
  Config.ref.admitted = true ∧ sineRef.length = 256 ∧ sineRef.sum = 32641 ∧
  (∀ i < 256, sineRef.getD i 0 ≤ 255 ∧
    (sineRef.getD i 0 = 0 ↔ 189 ≤ i ∧ i ≤ 195) ∧
    (sineRef.getD i 0 = 255 ↔ 61 ≤ i ∧ i ≤ 67)) ∧
  (∀ i < 256, sineRef.getD i 0 = sineRef.getD ((384 - i) % 256) 0) ∧
  (∀ i < 256, sineRef.getD i 0 + sineRef.getD ((i + 128) % 256) 0 =
    if i = 0 ∨ i = 128 then 256 else 255) ∧
  Config.ref.digitStep =
    [(5, 4), (5, 3), (5, 3), (6, 3), (5, 3), (5, 3), (6, 3), (5, 3), (5, 3), (6, 3)] ∧
  Config.ref.toneTicks = toneTicksFor 100 62500 ∧
  Config.ref.phw = 8 ∧ Config.ref.aw = 8 ∧ Config.ref.rcw = 14

/-- R68, R70: with the source's worked values, the phase step is the frequency's share of the table to the nearest integer, ties
upward; the reads of a start give the fused table's entry. -/
def Obligations.PhaseStepsAreNearestIntegers : Prop :=
  (∀ (c : Config) (f : Nat), c.admitted = true →
    c.phaseStep f = (2 * c.tableLen * f + c.sampleRate) / (2 * c.sampleRate) ∧
    2 * c.sampleRate * c.phaseStep f ≤ 2 * c.tableLen * f + c.sampleRate ∧
    2 * c.tableLen * f + c.sampleRate < 2 * c.sampleRate * (c.phaseStep f + 1)) ∧
  Config.ref.phaseStep 1336 = 5 ∧ Config.ref.phaseStep 770 = 3 ∧
  (∀ (c : Config) (d : Digit), stepPair c d = c.digitStep[d.toNat]?)

/-- R6: the derived widths are the least that fit. -/
def Obligations.DerivedWidthsAreLeast : Prop :=
  ∀ c : Config, c.admitted = true →
    (c.tableLen ≤ 2 ^ c.phw ∧ ∀ k, c.tableLen ≤ 2 ^ k → c.phw ≤ k) ∧
    (c.ampMax < 2 ^ c.aw ∧ ∀ k, c.ampMax < 2 ^ k → c.aw ≤ k) ∧
    (2 ≤ c.rcw ∧ c.toneTicks ≤ 2 ^ (c.rcw - 1) - 1 ∧
      ∀ k, 2 ≤ k → c.toneTicks ≤ 2 ^ (k - 1) - 1 → c.rcw ≤ k)

/-- R6, R98, R100: in a state of the invariant every register fits its width, the slot word is one of
the eleven legal ones, and an idle counter is all ones. That these registers are numbers in State is
the model's choice (log 6). -/
def Obligations.RegistersFitTheirWidths : Prop :=
  ∀ s : State, Ranges s →
    s.syn.highPhase < 2 ^ s.cfg.phw ∧ s.syn.lowPhase < 2 ^ s.cfg.phw ∧
    s.syn.highStep < 2 ^ s.cfg.phw ∧ s.syn.lowStep < 2 ^ s.cfg.phw ∧
    s.syn.level < 2 ^ s.cfg.aw ∧
    (remainingCyclesWord s.cfg s.syn).toInt = s.syn.remainingCycles ∧
    (s.syn.remainingCycles < 0 →
      remainingCyclesWord s.cfg s.syn = BitVec.allOnes s.cfg.rcw) ∧
    (slotWord s.slot = 0b01111#5 ∨
      16 ≤ (slotWord s.slot).toNat ∧ (slotWord s.slot).toNat ≤ 25)

/-! ## Faults, refusals, ownership -/

/-- R32, R247: a set fault bit is cleared by nothing but `CYC.RESET`. -/
def Obligations.FaultBitsAreSticky : Prop :=
  ∀ (i : Instr) (s t : State) (k : FaultCode), i ≠ .cycReset → exec i s = .next t →
    s.faultSet k = true → t.faultSet k = true

/-- R241, R248: a fault bit is newly set only by a take of an empty slot and by a push of a code that
is no digit, performed as slot operations: no poll and no sample tick raises either. -/
def Obligations.OnlySlotOperationsRaiseFaults : Prop :=
  ∀ (i : Instr) (s t : State), exec i s = .next t →
    (s.faultSet .emptyTake = false → t.faultSet .emptyTake = true →
      s.slot.valid = false ∧ (i = .slotTake ∨ ∃ d, i = .slotPushTake d)) ∧
    (s.faultSet .badDigit = false → t.faultSet .badDigit = true →
      ∃ d : Digit, 10 ≤ d.toNat ∧ (i = .slotPush d ∨ i = .slotPushTake d))

/-- R32: no operation's result depends on the fault bits. -/
def Obligations.FaultBitsInfluenceNothing : Prop :=
  ∀ (i : Instr) (s t : State) (f : FaultBits), exec i s = .next t →
    ∃ u, exec i { s with slot := { s.slot with fault := f } } = .next u ∧
      u.slot.valid = t.slot.valid ∧ u.slot.digit = t.slot.digit ∧ u.dec = t.dec ∧
      u.syn = t.syn ∧ u.out = { t.out with fault := f }

/-- R23, R25: no rule reads `movingSignal` or `previousPulseSignal`: they influence nothing else. -/
def Obligations.RecordRegistersInfluenceNothing : Prop :=
  ∀ (i : Instr) (s t : State) (a b : Line), exec i s = .next t →
    ∃ u, exec i { s with dec := { s.dec with movingSignal := a, previousPulseSignal := b } }
        = .next u ∧
      u.slot = t.slot ∧ u.syn = t.syn ∧ u.out = t.out ∧
      u.dec.pulseSignal = t.dec.pulseSignal ∧ u.dec.pulseCount = t.dec.pulseCount

/-- R47: which registers an agent's step writes. -/
def Obligations.EachAgentWritesOnlyItsOwnRegisters : Prop :=
  ∀ (i : Instr) (s t : State), exec i s = .next t →
    (i.family = .dec → t.syn = s.syn ∧ (t.slot = s.slot ∨ ∃ d : Digit, d.toNat ≤ 9 ∧
      t.slot = { s.slot with valid := true, digit := d })) ∧
    (i.family = .syn → t.dec = s.dec ∧ (t.slot = s.slot ∨ s.slot.valid = true ∧
      t.slot = { s.slot with valid := false, digit := 15#4 })) ∧
    (i.family = .slot → t.dec = s.dec ∧ t.syn = s.syn)

/-- R8: the configuration is changed by no operation; nor are the input words still to come, whose
place in State is the model's choice (log 3). What says that reset has been applied (log 12) is set by
the reset and changed by nothing else. -/
def Obligations.ConfigurationIsNeverWritten : Prop :=
  ∀ (i : Instr) (s t : State), exec i s = .next t → t.cfg = s.cfg ∧ t.trace = s.trace ∧
    t.begun = (s.begun || decide (i = .cycReset))

/-- R38, R276: `level` changes only in a cycle with the strobe or in reset; a cycle's strobe is 1
exactly with `rst = 0`, `tick_hi = 1` and `remainingCycles >= 0`. -/
def Obligations.LevelChangesOnlyWithItsStrobeOrReset : Prop :=
  (∀ (i : Instr) (s t : State), i ≠ .cycReset → exec i s = .next t → t.out.levelWr = false →
    t.syn.level = s.syn.level) ∧
  (∀ (s t : State) (w : CommandWord), exec (decodeCommand w) s = .next t →
    (t.out.levelWr = true ↔
      rstBit w = false ∧ tickHiBit w = true ∧ 0 ≤ s.syn.remainingCycles))

/-- R91, R38, R39, R92: the ports `level`, `idle`, `pending` and `fault` show the state held during the
cycle; `take_digit` shows the `slot_digit` held, but where a take under `DEC_FIRST` returns a digit
pushed in the same cycle (R134). That the outputs of the last cycle are recorded in State is the
model's choice (log 2). -/
def Obligations.PortsShowTheStateOfTheCycle : Prop :=
  ∀ (i : Instr) (s t : State), exec i s = .next t →
    t.out.level = s.syn.level ∧ t.out.idle = s.idle ∧ t.out.pending = s.pending ∧
    t.out.fault = s.slot.fault ∧ (s.idle = true ↔ s.syn.remainingCycles < 0) ∧
    s.pending = s.slot.valid ∧
    (t.out.take = false ∨ s.cfg.coincidentOrder = .synFirst → t.out.takeDigit = s.slot.digit)

/-- R7: under a configuration that is not admitted nothing has a meaning; the model refuses there
(log 7). -/
def Obligations.UnadmittedConfigurationIsRefused : Prop :=
  ∀ (i : Instr) (s : State), s.cfg.admitted = false →
    exec i s = .refused .configurationNotAdmitted

/-- R73, R95, R96: where a part performed on its own is refused: the model's choice for a part the
registers do not select (log 5), and a table read outside its index set (log 8). -/
def Obligations.PartsAreRefusedWhereTheyHaveNoMeaning : Prop :=
  ∀ s : State, s.cfg.admitted = true →
    (s.dec.pulseCount.toNat ≠ 0 → exec .decRestIdle s = .refused .notSelected) ∧
    (s.dec.pulseCount.toNat = 0 ∨ 11 ≤ s.dec.pulseCount.toNat →
      exec .decRestEmit s = .refused .notSelected) ∧
    (s.dec.pulseCount.toNat ≤ 10 → exec .decRestDiscard s = .refused .notSelected) ∧
    (s.syn.remainingCycles ≠ 0 → exec .synFinish s = .refused .notSelected) ∧
    (s.syn.remainingCycles ≤ 0 → exec .synGen s = .refused .notSelected) ∧
    (0 ≤ s.syn.remainingCycles ∨ s.slot.valid = false →
      exec .synStart s = .refused .notSelected) ∧
    (0 ≤ s.syn.remainingCycles ∨ s.slot.valid = true →
      exec .synNop s = .refused .notSelected) ∧
    (0 < s.syn.remainingCycles → s.cfg.tableLen ≤ s.syn.highPhase ∨
      s.cfg.tableLen ≤ s.syn.lowPhase → exec .synGen s = .refused .romIndexOutOfRange) ∧
    (s.syn.remainingCycles < 0 → s.slot.valid = true → 10 ≤ s.slot.digit.toNat →
      exec .synStart s = .refused .romIndexOutOfRange)

/-! ## Invariants and totality -/

/-- R45: the invariant holds at reset under every admitted configuration, the reference one among
them. -/
def Obligations.ResetMeetsTheInvariant : Prop :=
  Inv State.reset ∧ ∀ c : Config, c.admitted = true → Inv (State.resetWith c)

/-- R45 (a) to (f): every one of the 22 operations keeps the ranges, the slot's own operations with
illegal operands among them. -/
def Obligations.EveryOperationKeepsTheRanges : Prop :=
  ∀ (i : Instr) (s t : State), Ranges s → exec i s = .next t → Ranges t

/-- R45 (a) to (g): every step of the assembled block keeps the invariant, no fault bit among it. That
reset has begun the run (R272) is part of it. -/
def Obligations.StepKeepsTheInvariant : Prop :=
  ∀ s t : State, Inv s → step s = .next t → Inv t

/-- R226: in every state of the invariant with a word to come, the step has a next state. -/
def Obligations.StepCompletesUnderTheInvariant : Prop :=
  ∀ s : State, Inv s → s.trace ≠ [] → ∃ t, step s = .next t

/-- R220, R226, R45: any of the 32 words may follow any other: every sequence of command words runs
from reset to its end, where (a) to (g) of R45 hold, and (h): the two recorded samples of `pulse` are
those of the last two polls since reset. R272: with `R` as the first command, what follows does from any
state what it does from the reset state; before the first reset a run that begins otherwise has no
meaning (the field that tells, log 12). -/
def Obligations.EveryCommandSequenceRunsFromReset : Prop :=
  (∀ (c : Config) (ws : List CommandWord), c.admitted = true →
    ∃ t, runOn (ws.map InputWord.ports) (State.resetWith c) = .next t ∧ Inv t ∧
      t.trace = [] ∧ t.cfg = c ∧
      t.dec.pulseSignal = (samplesSinceReset ws).headD false ∧
      t.dec.previousPulseSignal = (samplesSinceReset ws).tail.headD false) ∧
  ∀ (s : State) (w : CommandWord) (ws : List CommandWord), s.cfg.admitted = true →
    (rstBit w = true → ∃ t u,
      runOn (ws.map InputWord.ports) (State.resetWith s.cfg) = .next t ∧
      runOn ((w :: ws).map InputWord.ports) s = .next u ∧
      SameRegisters t u ∧ u.begun = true ∧ u.cfg = s.cfg ∧ u.trace = s.trace) ∧
    (s.begun = false → rstBit w = false →
      runOn ((w :: ws).map InputWord.ports) s = .refused .beforeReset)
end

