-- ==== Sys2Proof/Laws/State.lean ====
section
/-! SUPPORT. One lemma per field per update of the state, each true by definition, so that no later
proof unfolds an update. -/

namespace Sys2Proof.Machine

variable (s : State) (k : FaultCode) (d : Digit) (m p : Line) (n : BitVec 4) (v : Nat)

@[simp] theorem raiseFault_cfg : (raiseFault k s).cfg = s.cfg := rfl
@[simp] theorem raiseFault_begun : (raiseFault k s).begun = s.begun := rfl
@[simp] theorem raiseFault_valid : (raiseFault k s).slot.valid = s.slot.valid := rfl
@[simp] theorem raiseFault_digit : (raiseFault k s).slot.digit = s.slot.digit := rfl
@[simp] theorem raiseFault_fault :
    (raiseFault k s).slot.fault = s.slot.fault ||| k.bit := rfl
@[simp] theorem raiseFault_dec : (raiseFault k s).dec = s.dec := rfl
@[simp] theorem raiseFault_syn : (raiseFault k s).syn = s.syn := rfl
@[simp] theorem raiseFault_out : (raiseFault k s).out = s.out := rfl
@[simp] theorem raiseFault_trace : (raiseFault k s).trace = s.trace := rfl

@[simp] theorem sampleLines_cfg : (sampleLines m p s).cfg = s.cfg := rfl
@[simp] theorem sampleLines_begun : (sampleLines m p s).begun = s.begun := rfl
@[simp] theorem sampleLines_slot : (sampleLines m p s).slot = s.slot := rfl
@[simp] theorem sampleLines_moving : (sampleLines m p s).dec.movingSignal = m := rfl
@[simp] theorem sampleLines_pulse : (sampleLines m p s).dec.pulseSignal = p := rfl
@[simp] theorem sampleLines_previous :
    (sampleLines m p s).dec.previousPulseSignal = s.dec.pulseSignal := rfl
@[simp] theorem sampleLines_count :
    (sampleLines m p s).dec.pulseCount = s.dec.pulseCount := rfl
@[simp] theorem sampleLines_syn : (sampleLines m p s).syn = s.syn := rfl
@[simp] theorem sampleLines_out : (sampleLines m p s).out = s.out := rfl
@[simp] theorem sampleLines_trace : (sampleLines m p s).trace = s.trace := rfl

@[simp] theorem setPulseCount_cfg : (setPulseCount n s).cfg = s.cfg := rfl
@[simp] theorem setPulseCount_begun : (setPulseCount n s).begun = s.begun := rfl
@[simp] theorem setPulseCount_slot : (setPulseCount n s).slot = s.slot := rfl
@[simp] theorem setPulseCount_moving :
    (setPulseCount n s).dec.movingSignal = s.dec.movingSignal := rfl
@[simp] theorem setPulseCount_pulse :
    (setPulseCount n s).dec.pulseSignal = s.dec.pulseSignal := rfl
@[simp] theorem setPulseCount_previous :
    (setPulseCount n s).dec.previousPulseSignal = s.dec.previousPulseSignal := rfl
@[simp] theorem setPulseCount_count : (setPulseCount n s).dec.pulseCount = n := rfl
@[simp] theorem setPulseCount_syn : (setPulseCount n s).syn = s.syn := rfl
@[simp] theorem setPulseCount_out : (setPulseCount n s).out = s.out := rfl
@[simp] theorem setPulseCount_trace : (setPulseCount n s).trace = s.trace := rfl

@[simp] theorem levelWrite_cfg : (levelWrite v s).cfg = s.cfg := rfl
@[simp] theorem levelWrite_begun : (levelWrite v s).begun = s.begun := rfl
@[simp] theorem levelWrite_slot : (levelWrite v s).slot = s.slot := rfl
@[simp] theorem levelWrite_dec : (levelWrite v s).dec = s.dec := rfl
@[simp] theorem levelWrite_syn : (levelWrite v s).syn = { s.syn with level := v } := rfl
@[simp] theorem levelWrite_out : (levelWrite v s).out = { s.out with levelWr := true } := rfl
@[simp] theorem levelWrite_trace : (levelWrite v s).trace = s.trace := rfl

@[simp] theorem resetRegisters_cfg : (resetRegisters s).cfg = s.cfg := rfl
@[simp] theorem resetRegisters_begun : (resetRegisters s).begun = true := rfl
@[simp] theorem resetRegisters_slot : (resetRegisters s).slot = SlotRegs.afterReset := rfl
@[simp] theorem resetRegisters_dec : (resetRegisters s).dec = DecRegs.afterReset := rfl
@[simp] theorem resetRegisters_syn :
    (resetRegisters s).syn = SynRegs.afterReset s.cfg := rfl
@[simp] theorem resetRegisters_out : (resetRegisters s).out = s.out := rfl
@[simp] theorem resetRegisters_trace : (resetRegisters s).trace = s.trace := rfl

@[simp] theorem openCycle_cfg : (openCycle s).cfg = s.cfg := rfl
@[simp] theorem openCycle_begun : (openCycle s).begun = s.begun := rfl
@[simp] theorem openCycle_slot : (openCycle s).slot = s.slot := rfl
@[simp] theorem openCycle_dec : (openCycle s).dec = s.dec := rfl
@[simp] theorem openCycle_syn : (openCycle s).syn = s.syn := rfl
@[simp] theorem openCycle_trace : (openCycle s).trace = s.trace := rfl
@[simp] theorem openCycle_levelWr : (openCycle s).out.levelWr = false := rfl
@[simp] theorem openCycle_takeDigit : (openCycle s).out.takeDigit = s.slot.digit := rfl
@[simp] theorem openCycle_take : (openCycle s).out.take = false := rfl
@[simp] theorem State.takeDigit_eq : s.takeDigit = s.slot.digit := rfl

@[simp] theorem slotTake_cfg : (slotTake s).cfg = s.cfg := by
  unfold slotTake faultIfEmpty; split <;> rfl
@[simp] theorem slotTake_valid : (slotTake s).slot.valid = false := rfl
@[simp] theorem slotTake_digit : (slotTake s).slot.digit = emptyDigit := rfl
@[simp] theorem slotTake_fault : (slotTake s).slot.fault =
    if s.slot.valid then s.slot.fault else s.slot.fault ||| FaultCode.emptyTake.bit := by
  unfold slotTake faultIfEmpty; split <;> rfl
@[simp] theorem slotTake_begun : (slotTake s).begun = s.begun := by
  unfold slotTake faultIfEmpty; split <;> rfl
@[simp] theorem slotTake_dec : (slotTake s).dec = s.dec := by
  unfold slotTake faultIfEmpty; split <;> rfl
@[simp] theorem slotTake_syn : (slotTake s).syn = s.syn := by
  unfold slotTake faultIfEmpty; split <;> rfl
@[simp] theorem slotTake_out :
    (slotTake s).out = { s.out with take := true, takeDigit := s.slot.digit } := by
  unfold slotTake faultIfEmpty; split <;> rfl
@[simp] theorem slotTake_trace : (slotTake s).trace = s.trace := by
  unfold slotTake faultIfEmpty; split <;> rfl

@[simp] theorem slotPush_cfg : (slotPush d s).cfg = s.cfg := by
  unfold slotPush; split <;> rfl
@[simp] theorem slotPush_begun : (slotPush d s).begun = s.begun := by
  unfold slotPush; split <;> rfl
@[simp] theorem slotPush_dec : (slotPush d s).dec = s.dec := by
  unfold slotPush; split <;> rfl
@[simp] theorem slotPush_syn : (slotPush d s).syn = s.syn := by
  unfold slotPush; split <;> rfl
@[simp] theorem slotPush_out : (slotPush d s).out = s.out := by
  unfold slotPush; split <;> rfl
@[simp] theorem slotPush_trace : (slotPush d s).trace = s.trace := by
  unfold slotPush; split <;> rfl

end Sys2Proof.Machine
end

