-- ==== Sys2Proof/Laws/Ops.lean ====
section
/-! SUPPORT. Everything each shared operation can do, said once: later proofs cite these lemmas and do
not unfold the operations. -/

namespace Sys2Proof.Machine

variable {s t : State} {op first second : State → Result} {b : Bool} {d : Digit}

/-- An operation answers a next state exactly when the configuration is admitted and the operation
answers it from the opened cycle. -/
theorem inCycle_next_iff :
    inCycle op s = .next t ↔ s.cfg.admitted = true ∧ op (openCycle s) = .next t := by
  unfold inCycle; split <;> simp_all

theorem inCycle_of_admitted (h : s.cfg.admitted = true) : inCycle op s = op (openCycle s) := by
  simp [inCycle, h]

theorem serially_next_iff :
    serially first second s = .next t ↔ ∃ u, first s = .next u ∧ second u = .next t := by
  unfold serially; split <;> simp_all

theorem whenSelected_next_iff :
    whenSelected b op s = .next t ↔ b = true ∧ op s = .next t := by
  unfold whenSelected; split <;> simp_all

/-- A push of a decimal digit writes the slot word and raises nothing. -/
theorem slotPush_decimal (h : d.toNat ≤ 9) :
    (slotPush d s).slot = { s.slot with valid := true, digit := d } := by
  simp [slotPush, isDecimal, h]

/-- A push of a code that is no decimal digit raises the fault and leaves the slot word. -/
theorem slotPush_reserved (h : 9 < d.toNat) :
    (slotPush d s).slot = { s.slot with fault := s.slot.fault ||| FaultCode.badDigit.bit } := by
  have : ¬ d.toNat ≤ 9 := by omega
  simp [slotPush, isDecimal, this, raiseFault]

/-- A take of a pending digit empties the slot and raises nothing. -/
theorem slotTake_pending (h : s.slot.valid = true) :
    (slotTake s).slot = { s.slot with valid := false, digit := emptyDigit } := by
  simp [slotTake, faultIfEmpty, h]

/-- The digit table answers a decimal digit, exactly on the valid counts. -/
theorem romPc2Digit_isSome_iff (n : BitVec 4) :
    (romPc2Digit n).isSome = countIsValid n := by
  unfold romPc2Digit; split <;> simp_all

theorem romPc2Digit_decimal (n : BitVec 4) : ∀ e, romPc2Digit n = some e → e.toNat ≤ 9 := by
  revert n; decide

/-- The sine table is read inside its index set wherever an admitted configuration's phase is in
range. -/
theorem romSine_of_lt (c : Config) (i : Nat) (h : c.admitted = true) (hi : i < c.tableLen) :
    romSine c i = some (c.sine.getD i 0) := by
  have hlen : c.sine.length = c.tableLen := by
    simp [Config.admitted, Config.tableOk] at h; omega
  have : i < c.sine.length := by omega
  simp [romSine, List.getD_eq_getElem?_getD, List.getElem?_eq_getElem this]

/-- A frequency that a digit uses has a step. -/
theorem romFreqStep_of_mem (c : Config) (t : TonePair) (h : t ∈ c.digitFreq) :
    romFreqStep c t.high = some (c.phaseStep t.high) ∧
      romFreqStep c t.low = some (c.phaseStep t.low) := by
  have hmem : ∀ f, f = t.high ∨ f = t.low → f ∈ c.frequencies := by
    intro f hf
    simp only [Config.frequencies, List.mem_flatMap]
    exact ⟨t, h, by simpa using hf⟩
  simp [romFreqStep, hmem]

/-- The table reads of a start, on an entry of the digit table. -/
theorem stepPair_of_entry (c : Config) (t : TonePair) (h : c.digitFreq[d.toNat]? = some t) :
    stepPair c d = some (c.phaseStep t.high, c.phaseStep t.low) := by
  have hm : t ∈ c.digitFreq := List.mem_of_getElem? h
  simp [stepPair, romDigitFreq, h, romFreqStep_of_mem c t hm]

/-- An admitted configuration has an entry for every decimal digit. -/
theorem digitFreq_entry (c : Config) (h : c.admitted = true) (hd : d.toNat ≤ 9) :
    ∃ t, c.digitFreq[d.toNat]? = some t := by
  have hlen : c.digitFreq.length = 10 := by
    simp [Config.admitted, Config.stepsOk] at h; omega
  exact ⟨_, List.getElem?_eq_getElem (by omega)⟩

/-- An admitted configuration's entries have steps below the table length. -/
theorem phaseStep_lt (c : Config) (t : TonePair) (h : c.admitted = true) (ht : t ∈ c.digitFreq) :
    c.phaseStep t.high < c.tableLen ∧ c.phaseStep t.low < c.tableLen := by
  simp [Config.admitted, Config.stepsOk, List.all_eq_true] at h
  have := h.1.1.1.2.2 t ht
  omega

theorem tableLen_ge_two (c : Config) (h : c.admitted = true) : 2 ≤ c.tableLen := by
  simp [Config.admitted, Config.tableOk] at h; omega

/-- An admitted configuration's table entries are amplitudes. -/
theorem sine_le_ampMax (c : Config) (h : c.admitted = true) (i : Nat) :
    c.sine.getD i 0 ≤ c.ampMax := by
  simp [Config.admitted, Config.amplitudeOk, List.all_eq_true] at h
  by_cases hi : i < c.sine.length
  · have := h.1.1.1.1.2.2 _ (List.getElem_mem hi)
    simpa [List.getD_eq_getElem?_getD, List.getElem?_eq_getElem hi] using this
  · simp [List.getD_eq_getElem?_getD, List.getElem?_eq_none (by omega : c.sine.length ≤ i)]

end Sys2Proof.Machine
end

