-- ==== Sys2Proof/Laws/Events.lean ====
section
/-! SUPPORT. What the parts of a poll and of a sample tick can do, one lemma each, and from them what a
whole poll and a whole sample tick can do. -/

namespace Sys2Proof.Machine

variable {s t : State}

theorem restIdle_next_iff : restIdle s = .next t ↔ s.dec.pulseCount.toNat = 0 ∧ s = t := by
  simp [restIdle, whenSelected_next_iff, countIsZero]

theorem restEmit_next_iff : restEmit s = .next t ↔
    ∃ d, romPc2Digit s.dec.pulseCount = some d ∧ setPulseCount 0#4 (slotPush d s) = t := by
  have hv := romPc2Digit_isSome_iff s.dec.pulseCount
  unfold restEmit
  rw [whenSelected_next_iff]
  cases h : romPc2Digit s.dec.pulseCount <;> simp_all

theorem restDiscard_next_iff : restDiscard s = .next t ↔
    11 ≤ s.dec.pulseCount.toNat ∧ setPulseCount 0#4 s = t := by
  simp [restDiscard, whenSelected_next_iff, countIsExcess]

theorem moveCount_next_iff : moveCount s = .next t ↔
    setPulseCount (countUp s.dec.pulseCount) s = t := by
  simp [moveCount]

theorem moveHold_next_iff : moveHold s = .next t ↔ s = t := by
  simp [moveHold]

theorem finishTone_next_iff : finishTone s = .next t ↔ s.syn.remainingCycles = 0 ∧
    { s with syn := { s.syn with remainingCycles := -1, level := s.cfg.silenceLevel },
             out := { s.out with levelWr := true } } = t := by
  simp [finishTone, whenSelected_next_iff, levelWrite]

theorem generate_next_iff : generate s = .next t ↔ 0 < s.syn.remainingCycles ∧
    ∃ a b, romSine s.cfg s.syn.highPhase = some a ∧ romSine s.cfg s.syn.lowPhase = some b ∧
      { s with syn := { s.syn with
                 remainingCycles := s.syn.remainingCycles - 1
                 highPhase := advance s.cfg s.syn.highPhase s.syn.highStep
                 lowPhase := advance s.cfg s.syn.lowPhase s.syn.lowStep
                 level := mean a b },
               out := { s.out with levelWr := true } } = t := by
  unfold generate
  rw [whenSelected_next_iff]
  cases romSine s.cfg s.syn.highPhase <;> cases romSine s.cfg s.syn.lowPhase <;>
    simp [levelWrite]

theorem startTone_next_iff : startTone s = .next t ↔
    s.syn.remainingCycles < 0 ∧ s.slot.valid = true ∧
    ∃ hs ls, stepPair s.cfg s.slot.digit = some (hs, ls) ∧
      { s with slot := { s.slot with valid := false, digit := emptyDigit },
               syn := { s.syn with
                 remainingCycles := s.cfg.toneTicks
                 highPhase := 0
                 lowPhase := 0
                 highStep := hs
                 lowStep := ls },
               out := { s.out with take := true, takeDigit := s.slot.digit } } = t := by
  unfold startTone
  rw [whenSelected_next_iff]
  cases hv : s.slot.valid <;> rcases hp : stepPair s.cfg s.slot.digit with _ | ⟨a, b⟩ <;>
    simp [State.pending, slotTake, faultIfEmpty, hv, hp, and_assoc]

theorem idleTick_next_iff : idleTick s = .next t ↔
    s.syn.remainingCycles < 0 ∧ s.slot.valid = false ∧ s = t := by
  simp [idleTick, whenSelected_next_iff, State.pending, and_assoc]

/-- The slot's registers after a poll. -/
def slotAfterPoll (m : Line) (s : State) : SlotRegs :=
  match m, romPc2Digit s.dec.pulseCount with
  | true, some d => { s.slot with valid := true, digit := d }
  | _, _ => s.slot

/-- The count after a poll. -/
def countAfterPoll (m p : Line) (s : State) : BitVec 4 :=
  if m then 0#4 else if rising s.dec.pulseSignal p then countUp s.dec.pulseCount
  else s.dec.pulseCount

/-- The whole effect of a poll: it always completes, and changes the decoder's registers and the slot
word only. -/
theorem poll_eq (m p : Line) (s : State) : poll m p s = .next
    { s with slot := slotAfterPoll m s,
             dec := { movingSignal := m, pulseSignal := p,
                      previousPulseSignal := s.dec.pulseSignal,
                      pulseCount := countAfterPoll m p s } } := by
  unfold poll
  cases m with
  | false =>
    by_cases hr : rising s.dec.pulseSignal p = true <;>
      simp [selectPoll, atRest, hr, pollPart, moveCount, moveHold, slotAfterPoll, countAfterPoll,
        sampleLines, setPulseCount]
  | true =>
    by_cases h0 : s.dec.pulseCount.toNat = 0
    · have hz : s.dec.pulseCount = 0#4 := BitVec.eq_of_toNat_eq h0
      have hsel : selectPoll s.dec true p = .restIdle := by simp [selectPoll, atRest, countIsZero, h0]
      rw [hsel]
      refine (restIdle_next_iff.mpr ⟨h0, ?_⟩)
      simp [slotAfterPoll, countAfterPoll, romPc2Digit, countIsValid, hz, sampleLines]
    · by_cases hv : s.dec.pulseCount.toNat ≤ 10
      · have hok : countIsValid s.dec.pulseCount = true := by simp [countIsValid]; omega
        have hsel : selectPoll s.dec true p = .restEmit := by
          simp [selectPoll, atRest, countIsZero, h0, hok]
        obtain ⟨d, hd⟩ : ∃ d, romPc2Digit s.dec.pulseCount = some d :=
          Option.isSome_iff_exists.mp (by rw [romPc2Digit_isSome_iff, hok])
        rw [hsel]
        refine (restEmit_next_iff.mpr ⟨d, hd, ?_⟩)
        simp [slotAfterPoll, countAfterPoll, hd, sampleLines, setPulseCount, slotPush, isDecimal,
          romPc2Digit_decimal _ d hd]
      · have hno : countIsValid s.dec.pulseCount = false := by simp [countIsValid]; omega
        have hsel : selectPoll s.dec true p = .restDiscard := by
          simp [selectPoll, atRest, countIsZero, h0, hno]
        rw [hsel]
        refine (restDiscard_next_iff.mpr ⟨by simp; omega, ?_⟩)
        simp [slotAfterPoll, countAfterPoll, romPc2Digit, hno, sampleLines, setPulseCount]

/-- What a sample tick can do: one of its four parts. -/
theorem sampleTick_cases (h : sampleTick s = .next t) :
    finishTone s = .next t ∨ generate s = .next t ∨ startTone s = .next t ∨
      idleTick s = .next t := by
  unfold sampleTick at h
  cases hp : selectTick s.syn.remainingCycles s.pending <;> rw [hp] at h
  exacts [.inl h, .inr (.inl h), .inr (.inr (.inl h)), .inr (.inr (.inr h))]

/-- The four parts do not overlap: a part that answers is the part that is selected. -/
theorem sampleTick_of_part (a : TickPart) (h : tickPart a s = .next t) : sampleTick s = .next t := by
  suffices selectTick s.syn.remainingCycles s.pending = a by rw [sampleTick, this]; exact h
  unfold selectTick
  cases a with
  | finish => have := (finishTone_next_iff.mp h).1; simp [this]
  | gen => have := (generate_next_iff.mp h).1; simp [this, show s.syn.remainingCycles ≠ 0 by omega]
  | start =>
    obtain ⟨h1, h2, -⟩ := startTone_next_iff.mp h
    simp [State.pending, h2, show s.syn.remainingCycles ≠ 0 by omega,
      show ¬ 0 < s.syn.remainingCycles by omega]
  | nop =>
    obtain ⟨h1, h2, -⟩ := idleTick_next_iff.mp h
    simp [State.pending, h2, show s.syn.remainingCycles ≠ 0 by omega,
      show ¬ 0 < s.syn.remainingCycles by omega]

end Sys2Proof.Machine
end

