-- ==== Sys2Proof/Laws/Exec.lean ====
section
/-! SUPPORT. When each operation of a command word answers a next state and which one, what a sample
tick leaves alone, and when it completes. -/

namespace Sys2Proof.Machine

variable {s t : State} {m p : Line}

/-- The state after a poll. -/
def afterPoll (m p : Line) (s : State) : State :=
  { s with slot := slotAfterPoll m s,
           dec := { movingSignal := m, pulseSignal := p,
                    previousPulseSignal := s.dec.pulseSignal,
                    pulseCount := countAfterPoll m p s } }

theorem poll_eq_afterPoll (m p : Line) (s : State) : poll m p s = .next (afterPoll m p s) :=
  poll_eq m p s

theorem openCycle_eq (s : State) : openCycle s = { s with out := portsShown s false none } := rfl

theorem exec_cycReset_next_iff : exec .cycReset s = .next t ↔
    s.cfg.admitted = true ∧ resetRegisters (openCycle s) = t := by
  simp only [exec, execCycReset, inCycle_next_iff]; simp

theorem exec_cycNop_next_iff : exec .cycNop s = .next t ↔
    s.cfg.admitted = true ∧ openCycle s = t := by
  simp only [exec, execCycNop, inCycle_next_iff]; simp

theorem exec_cycDec_next_iff : exec (.cycDec m p) s = .next t ↔
    s.cfg.admitted = true ∧ afterPoll m p (openCycle s) = t := by
  refine inCycle_next_iff.trans ?_
  rw [poll_eq_afterPoll]; simp

theorem exec_cycSyn_next_iff : exec .cycSyn s = .next t ↔
    s.cfg.admitted = true ∧ sampleTick (openCycle s) = .next t := inCycle_next_iff

theorem exec_cycBoth_next_iff : exec (.cycBoth m p) s = .next t ↔ s.cfg.admitted = true ∧
    ((s.cfg.coincidentOrder = .synFirst ∧
        ∃ u, sampleTick (openCycle s) = .next u ∧ afterPoll m p u = t) ∨
      (s.cfg.coincidentOrder = .decFirst ∧
        sampleTick (afterPoll m p (openCycle s)) = .next t)) := by
  refine inCycle_next_iff.trans ?_
  unfold bothTicks
  cases ho : s.cfg.coincidentOrder <;> simp [ho, serially_next_iff, poll_eq_afterPoll]

theorem exec_slotHold_next_iff : exec .slotHold s = .next t ↔
    s.cfg.admitted = true ∧ openCycle s = t := by
  simp only [exec, execSlotHold, inCycle_next_iff]; simp

theorem exec_slotPush_next_iff {d : Digit} : exec (.slotPush d) s = .next t ↔
    s.cfg.admitted = true ∧ slotPush d (openCycle s) = t := by
  simp only [exec, execSlotPush, inCycle_next_iff]; simp

theorem exec_slotTake_next_iff : exec .slotTake s = .next t ↔
    s.cfg.admitted = true ∧ slotTake (openCycle s) = t := by
  simp only [exec, execSlotTake, inCycle_next_iff]; simp

theorem exec_slotPushTake_next_iff {d : Digit} : exec (.slotPushTake d) s = .next t ↔
    s.cfg.admitted = true ∧ slotPushTake d (openCycle s) = t := by
  simp only [exec, execSlotPushTake, inCycle_next_iff]; simp

/-- What a sample tick leaves alone. -/
theorem sampleTick_frame (h : sampleTick s = .next t) :
    t.dec = s.dec ∧ t.cfg = s.cfg ∧ t.trace = s.trace ∧ t.out.level = s.out.level ∧
      t.out.idle = s.out.idle ∧ t.out.pending = s.out.pending ∧ t.out.fault = s.out.fault ∧
      t.slot.fault = s.slot.fault := by
  rcases sampleTick_cases h with hp | hp | hp | hp
  · obtain ⟨-, rfl⟩ := finishTone_next_iff.mp hp; simp
  · obtain ⟨-, _, _, _, _, rfl⟩ := generate_next_iff.mp hp; simp
  · obtain ⟨-, -, _, _, _, rfl⟩ := startTone_next_iff.mp hp; simp
  · obtain ⟨-, -, rfl⟩ := idleTick_next_iff.mp hp; simp

/-- A sample tick whose table reads are in range completes. -/
theorem sampleTick_completes (h : s.cfg.admitted = true) (ht : TablesInRange s) :
    ∃ t, sampleTick s = .next t := by
  rcases lt_trichotomy s.syn.remainingCycles 0 with hn | h0 | hp
  · cases hv : s.slot.valid
    · exact ⟨s, sampleTick_of_part .nop (idleTick_next_iff.mpr ⟨hn, hv, rfl⟩)⟩
    · obtain ⟨e, he⟩ := digitFreq_entry s.cfg h (ht.digit hn hv)
      exact ⟨_, sampleTick_of_part .start
        (startTone_next_iff.mpr ⟨hn, hv, _, _, stepPair_of_entry _ _ he, rfl⟩)⟩
  · exact ⟨_, sampleTick_of_part .finish (finishTone_next_iff.mpr ⟨h0, rfl⟩)⟩
  · obtain ⟨h1, h2⟩ := ht.phases hp
    exact ⟨_, sampleTick_of_part .gen (generate_next_iff.mpr
      ⟨hp, _, _, romSine_of_lt _ _ h h1, romSine_of_lt _ _ h h2, rfl⟩)⟩

theorem TablesInRange.openCycle (ht : TablesInRange s) : TablesInRange (openCycle s) :=
  ⟨ht.phases, ht.digit⟩

/-- A poll keeps the table reads in range: it pushes decimal digits only. -/
theorem TablesInRange.afterPoll (ht : TablesInRange s) : TablesInRange (afterPoll m p s) := by
  refine ⟨ht.phases, ?_⟩
  simp only [Machine.afterPoll]
  intro hn
  unfold slotAfterPoll
  split
  · rename_i d hd; intro _; exact romPc2Digit_decimal _ d hd
  · exact ht.digit hn

theorem sampleTick_begun (h : sampleTick s = .next t) : t.begun = s.begun := by
  rcases sampleTick_cases h with hp | hp | hp | hp
  · obtain ⟨-, rfl⟩ := finishTone_next_iff.mp hp; rfl
  · obtain ⟨-, _, _, _, _, rfl⟩ := generate_next_iff.mp hp; rfl
  · obtain ⟨-, -, _, _, _, rfl⟩ := startTone_next_iff.mp hp; rfl
  · obtain ⟨-, -, rfl⟩ := idleTick_next_iff.mp hp; rfl

/-- An operation of a run answers a next state exactly when the run may go on with it and the operation
answers that state. -/
theorem perform_next_iff {i : Instr} :
    perform i s = .next t ↔ (s.begun = true ∨ i = .cycReset) ∧ exec i s = .next t := by
  unfold perform State.mayPerform; split <;> simp_all

theorem perform_of_begun {i : Instr} (h : s.begun = true) : perform i s = exec i s := by
  simp [perform, State.mayPerform, h]

theorem perform_reset (s : State) : perform .cycReset s = exec .cycReset s := by
  simp [perform, State.mayPerform]

/-- Before the first reset nothing but a reset cycle is performed. -/
theorem perform_beforeReset {i : Instr} (h : s.begun = false) (hi : i ≠ .cycReset) :
    perform i s = .refused .beforeReset := by
  simp [perform, State.mayPerform, h, hi]

theorem decodeCommand_cases (w : CommandWord) :
    decodeCommand w = .cycReset ∨ decodeCommand w = .cycNop ∨
      decodeCommand w = .cycDec (movingBit w) (pulseBit w) ∨ decodeCommand w = .cycSyn ∨
      decodeCommand w = .cycBoth (movingBit w) (pulseBit w) := by
  unfold decodeCommand; split <;> simp

/-- A cycle changes neither the configuration nor the words to come. -/
theorem exec_command_frame {w : CommandWord} (h : exec (decodeCommand w) s = .next t) :
    t.cfg = s.cfg ∧ t.trace = s.trace := by
  rcases decodeCommand_cases w with hw | hw | hw | hw | hw <;> rw [hw] at h
  · obtain ⟨-, rfl⟩ := exec_cycReset_next_iff.mp h; exact ⟨rfl, rfl⟩
  · obtain ⟨-, rfl⟩ := exec_cycNop_next_iff.mp h; exact ⟨rfl, rfl⟩
  · obtain ⟨-, rfl⟩ := exec_cycDec_next_iff.mp h; exact ⟨rfl, rfl⟩
  · obtain ⟨-, a, b, -⟩ := sampleTick_frame (exec_cycSyn_next_iff.mp h).2; exact ⟨a, b⟩
  · obtain ⟨-, ⟨-, u, hu, rfl⟩ | ⟨-, ht⟩⟩ := exec_cycBoth_next_iff.mp h
    · obtain ⟨-, a, b, -⟩ := sampleTick_frame hu; exact ⟨a, b⟩
    · obtain ⟨-, a, b, -⟩ := sampleTick_frame ht; exact ⟨a, b⟩

/-- A cycle never undoes the beginning of a run. -/
theorem exec_command_begun {w : CommandWord} (h : exec (decodeCommand w) s = .next t)
    (hb : s.begun = true ∨ decodeCommand w = .cycReset) : t.begun = true := by
  rcases decodeCommand_cases w with hw | hw | hw | hw | hw <;> rw [hw] at h hb <;>
    simp only [reduceCtorEq, or_false] at hb
  · obtain ⟨-, rfl⟩ := exec_cycReset_next_iff.mp h; rfl
  · obtain ⟨-, rfl⟩ := exec_cycNop_next_iff.mp h; exact hb
  · obtain ⟨-, rfl⟩ := exec_cycDec_next_iff.mp h; exact hb
  · exact (sampleTick_begun (exec_cycSyn_next_iff.mp h).2).trans hb
  · obtain ⟨-, ⟨-, u, hu, rfl⟩ | ⟨-, ht⟩⟩ := exec_cycBoth_next_iff.mp h
    · exact (sampleTick_begun hu).trans hb
    · exact (sampleTick_begun ht).trans hb

end Sys2Proof.Machine
end

