-- ==== Sys2Proof/Laws/PerInstr.lean ====
section
/-! SUPPORT. Per instruction: the encoded word has the width of its row of spec/opcode_table.json and
the row's match under the row's mask (30_encoding.md R108). -/

namespace Sys2Proof.Laws.WordMatchesRow

/-- The statement of the family. -/
def Statement (i : Instr) : Prop :=
  (encode i).bits.1 = i.row.width ∧ (encode i).bits.2 &&& i.row.mask = i.row.value

theorem cycReset : Statement .cycReset := by unfold Statement; decide
theorem cycNop : Statement .cycNop := by unfold Statement; decide
theorem cycDec (m p : Line) : Statement (.cycDec m p) := by
  unfold Statement; revert m p; decide
theorem cycSyn : Statement .cycSyn := by unfold Statement; decide
theorem cycBoth (m p : Line) : Statement (.cycBoth m p) := by
  unfold Statement; revert m p; decide
theorem decTick (m p : Line) : Statement (.decTick m p) := by
  unfold Statement; revert m p; decide
theorem decSample (m p : Line) : Statement (.decSample m p) := by
  unfold Statement; revert m p; decide
theorem decRestIdle : Statement .decRestIdle := by unfold Statement; decide
theorem decRestEmit : Statement .decRestEmit := by unfold Statement; decide
theorem decRestDiscard : Statement .decRestDiscard := by unfold Statement; decide
theorem decMoveCount : Statement .decMoveCount := by unfold Statement; decide
theorem decMoveHold : Statement .decMoveHold := by unfold Statement; decide
theorem synTick : Statement .synTick := by unfold Statement; decide
theorem synFinish : Statement .synFinish := by unfold Statement; decide
theorem synGen : Statement .synGen := by unfold Statement; decide
theorem synStart : Statement .synStart := by unfold Statement; decide
theorem synNop : Statement .synNop := by unfold Statement; decide
theorem slotHold : Statement .slotHold := by unfold Statement; decide
theorem slotPush (d : Digit) : Statement (.slotPush d) := by
  unfold Statement; revert d; decide
theorem slotTake : Statement .slotTake := by unfold Statement; decide
theorem slotPushTake (d : Digit) : Statement (.slotPushTake d) := by
  unfold Statement; revert d; decide
theorem slotHasPending : Statement .slotHasPending := by unfold Statement; decide

end Sys2Proof.Laws.WordMatchesRow
end

