-- ==== Sys2Proof/Laws/Run.lean ====
section
/-! SUPPORT. Runs over command words, one cycle at a time: what a cycle does is the same whatever words
follow it, so a run splits at any point. -/

namespace Sys2Proof.Machine

variable {s t u : State} {w : CommandWord} {words rest : List InputWord}

/-- The state with other words to come. -/
def withTrace (words : List InputWord) (s : State) : State := { s with trace := words }

theorem sampleTick_withTrace (h : sampleTick s = .next t) :
    sampleTick (withTrace words s) = .next (withTrace words t) := by
  rcases sampleTick_cases h with hp | hp | hp | hp
  · obtain ⟨a, rfl⟩ := finishTone_next_iff.mp hp
    exact sampleTick_of_part .finish (finishTone_next_iff.mpr ⟨a, rfl⟩)
  · obtain ⟨a, x, y, hx, hy, rfl⟩ := generate_next_iff.mp hp
    exact sampleTick_of_part .gen (generate_next_iff.mpr ⟨a, x, y, hx, hy, rfl⟩)
  · obtain ⟨a, b, x, y, hx, rfl⟩ := startTone_next_iff.mp hp
    exact sampleTick_of_part .start (startTone_next_iff.mpr ⟨a, b, x, y, hx, rfl⟩)
  · obtain ⟨a, b, rfl⟩ := idleTick_next_iff.mp hp
    exact sampleTick_of_part .nop (idleTick_next_iff.mpr ⟨a, b, rfl⟩)

/-- A cycle does the same whatever words follow it. -/
theorem exec_command_withTrace (h : exec (decodeCommand w) s = .next t) :
    exec (decodeCommand w) (withTrace words s) = .next (withTrace words t) := by
  rcases decodeCommand_cases w with hw | hw | hw | hw | hw <;> rw [hw] at h ⊢
  · obtain ⟨ha, rfl⟩ := exec_cycReset_next_iff.mp h
    exact exec_cycReset_next_iff.mpr ⟨ha, rfl⟩
  · obtain ⟨ha, rfl⟩ := exec_cycNop_next_iff.mp h
    exact exec_cycNop_next_iff.mpr ⟨ha, rfl⟩
  · obtain ⟨ha, rfl⟩ := exec_cycDec_next_iff.mp h
    exact exec_cycDec_next_iff.mpr ⟨ha, rfl⟩
  · obtain ⟨ha, ht⟩ := exec_cycSyn_next_iff.mp h
    exact exec_cycSyn_next_iff.mpr ⟨ha, sampleTick_withTrace ht⟩
  · obtain ⟨ha, ⟨ho, _, hx, rfl⟩ | ⟨ho, ht⟩⟩ := exec_cycBoth_next_iff.mp h
    · exact exec_cycBoth_next_iff.mpr ⟨ha, .inl ⟨ho, _, sampleTick_withTrace hx, rfl⟩⟩
    · exact exec_cycBoth_next_iff.mpr ⟨ha, .inr ⟨ho, sampleTick_withTrace ht⟩⟩

theorem perform_command_withTrace (h : perform (decodeCommand w) s = .next t) :
    perform (decodeCommand w) (withTrace words s) = .next (withTrace words t) := by
  obtain ⟨hm, he⟩ := perform_next_iff.mp h
  exact perform_next_iff.mpr ⟨hm, exec_command_withTrace he⟩

theorem run_of_next (M : Host.Core) (k : Nat) {a b : M.State} (h : M.step a = .next b) :
    M.run (k + 1) a = M.run k b := by
  simp only [Host.Core.run, h]

theorem run_of_refused (M : Host.Core) (k : Nat) {a : M.State} {r : M.Refusal}
    (h : M.step a = .refused r) : M.run (k + 1) a = .refused r := by
  simp only [Host.Core.run, h]

theorem runOn_nil (s : State) : runOn [] s = .next s := rfl

/-- A run that does not begin from reset is refused (70_reset_and_hazards.md R272). -/
theorem runOn_beforeReset {w : InputWord} (hb : s.begun = false) (hw : decode w ≠ .cycReset) :
    runOn (w :: rest) s = .refused .beforeReset := by
  have hstep : core.step { s with trace := w :: (rest ++ s.trace) } = .refused .beforeReset :=
    perform_beforeReset hb hw
  exact run_of_refused core rest.length hstep

theorem runOn_cons (h : perform (decodeCommand w) s = .next t) :
    runOn (.ports w :: rest) s = runOn rest t := by
  have hx := perform_command_withTrace (words := rest ++ s.trace) h
  have hstep : core.step { s with trace := .ports w :: (rest ++ s.trace) } =
      .next (withTrace (rest ++ s.trace) t) := hx
  refine (run_of_next core rest.length hstep).trans ?_
  unfold runOn
  rw [(exec_command_frame (perform_next_iff.mp h).2).2]
  rfl

theorem runOn_append (hp : ∀ w ∈ words, ∃ cw, w = InputWord.ports cw)
    (h : runOn words s = .next u) : runOn (words ++ rest) s = runOn rest u := by
  induction words generalizing s with
  | nil => simp [runOn_nil] at h; subst h; rfl
  | cons w ws ih =>
    obtain ⟨c, rfl⟩ := hp w (by simp)
    cases he : perform (decodeCommand c) s with
    | next t =>
      rw [List.cons_append, runOn_cons he]
      rw [runOn_cons he] at h
      exact ih (fun w hx => hp w (by simp [hx])) h
    | fault f => cases f
    | refused r =>
      exfalso
      cases hx : perform (decodeCommand c) (withTrace (ws ++ s.trace) s) with
      | next t =>
        have := perform_command_withTrace (words := s.trace) hx
        change perform _ s = _ at this
        rw [he] at this; cases this
      | fault f => cases f
      | refused q =>
        have hstep : core.step { s with trace := .ports c :: (ws ++ s.trace) } = .refused q := hx
        have := (run_of_refused core ws.length hstep).symm.trans h
        cases this

end Sys2Proof.Machine
end

