-- ==== Sys2Proof/Tests/Slice0.lean ====
section
/-! SUPPORT. Tests. Expected values are those of spec/95_test_vectors.md, under its ids X, E, Y and Z;
the configurations `REF4` and `TINY` are those of its section 0. Then ill-formed terms that the checks
refuse, and for every statement with hypotheses a witness that meets them together. -/

namespace Sys2Proof.Tests
open Sys2Proof Sys2Proof.Machine

/-! ## Configurations and small states -/

/-- `REF4`: `REF` with `TONE_TICKS` taken directly as 4. -/
def ref4 : Config := { Config.ref with durationMs := none, toneTicks := 4 }

/-- `TINY`: a table of eight entries. -/
def tiny : Config where
  tableLen := 8
  ampMax := 255
  sampleRate := 4000
  durationMs := some 2
  toneTicks := 8
  silenceLevel := 0
  sine := [128, 218, 255, 218, 128, 37, 0, 37]
  digitFreq := digitFreqRef
  coincidentOrder := .synFirst
  pollMs := none

/-- `TINY` under `DEC_FIRST`. -/
def tinyDec : Config := { tiny with coincidentOrder := .decFirst }

/-- The slot words `E` and `P(d)`, and the fault bits. -/
def slotE (f : FaultBits) : SlotRegs := { valid := false, digit := 15#4, fault := f }
def slotP (d : Digit) (f : FaultBits) : SlotRegs := { valid := true, digit := d, fault := f }

/-- The decoder's state as the tuple of 41_decoder.md. -/
def decS (m p q : Bool) (n : BitVec 4) : DecRegs :=
  { movingSignal := m, pulseSignal := p, previousPulseSignal := q, pulseCount := n }

/-- The synthesizer's state as the tuple of 42_synth.md. -/
def synS (rc : Int) (hp lp hs ls level : Nat) : SynRegs :=
  { remainingCycles := rc, highPhase := hp, lowPhase := lp, highStep := hs, lowStep := ls,
    level := level }

/-- A state after reset but for its registers. -/
def stateOf (c : Config) (r : SlotRegs) (d : DecRegs) (y : SynRegs) : State :=
  { State.resetWith c with slot := r, dec := d, syn := y }

def decZero : DecRegs := DecRegs.afterReset
def synIdle : SynRegs := synS (-1) 0 0 0 0 0

/-- What a test compares: the registers, the strobe and the value taken. -/
def seen : Result → Option (SlotRegs × DecRegs × SynRegs × Line × Option Digit)
  | .next t => some (t.slot, t.dec, t.syn, t.out.levelWr, t.out.taken)
  | .fault _ => none
  | .refused _ => none

/-- One step under a command word. -/
def cycleOn (w : CommandWord) (s : State) : Result := step { s with trace := [.ports w] }

/-- One step under a slot command. -/
def slotOn (w : SlotCommand) (s : State) : Result := step { s with trace := [.slot w] }

/-- The slot alone under `TINY` or another configuration. -/
def slotAlone (c : Config) (r : SlotRegs) : State := stateOf c r decZero synIdle

def refusedAs : Result → Option Refusal
  | .next _ => none
  | .fault _ => none
  | .refused r => some r

/-! ## Ill-formed terms -/

theorem test_tiny_admitted : tiny.admitted = true := by decide
theorem test_ref4_admitted : ref4.admitted = true := by decide +kernel
theorem test_table_too_short : { tiny with tableLen := 1, sine := [128] }.tableOk = false := by decide
theorem test_table_length_wrong : { tiny with sine := [128, 218] }.tableOk = false := by decide
theorem test_amplitude_above_max : { tiny with ampMax := 254 }.amplitudeOk = false := by decide
theorem test_amplitude_zero : { tiny with ampMax := 0, sine := [] }.amplitudeOk = false := by decide
theorem test_step_reaches_table :
    { tiny with digitFreq := ⟨4000, 697⟩ :: digitFreqRef.tail }.stepsOk = false := by decide
theorem test_nine_pairs_refused : { tiny with digitFreq := digitFreqRef.tail }.stepsOk = false := by
  decide
theorem test_silence_above_max : { tiny with silenceLevel := 256 }.silenceOk = false := by decide
theorem test_tone_ticks_not_computed : { tiny with toneTicks := 9 }.toneTicksOk = false := by decide
theorem test_poll_zero_refused : { tiny with pollMs := some 0 }.pollOk = false := by decide
theorem test_reserved_push_not_well_formed : Instr.wellFormed (.slotPush 10#4) = false := by decide
theorem test_sentinel_push_not_well_formed : Instr.wellFormed (.slotPushTake 15#4) = false := by
  decide
theorem test_unadmitted_refused :
    refusedAs (exec .cycNop (State.resetWith { tiny with silenceLevel := 256 })) =
      some .configurationNotAdmitted := by decide
theorem test_empty_trace_refused : refusedAs (step State.reset) = some .traceEnded := by
  decide

/-! ## Words, written out from the encodings of 30_encoding.md R94, R97 and R106 -/

theorem test_decode_cycle_words :
    decode (.ports 0b10000#5) = .cycReset ∧ decode (.ports 0b00000#5) = .cycNop ∧
    decode (.ports 0b01001#5) = .cycDec false true ∧
    decode (.ports 0b01010#5) = .cycDec true false ∧ decode (.ports 0b00100#5) = .cycSyn ∧
    decode (.ports 0b01101#5) = .cycBoth false true ∧
    decode (.ports 0b01110#5) = .cycBoth true false := by decide
theorem test_decode_slot_words :
    decode (.slot 0b000000#6) = .slotHold ∧ decode (.slot 0b100110#6) = .slotPush 6#4 ∧
    decode (.slot 0b010000#6) = .slotTake ∧ decode (.slot 0b110010#6) = .slotPushTake 2#4 ∧
    decode .outputRead = .slotHasPending := by decide
theorem test_ignored_bits :
    decode (.ports 0b11111#5) = .cycReset ∧ decode (.ports 0b00011#5) = .cycNop ∧
    decode (.ports 0b00111#5) = .cycSyn ∧ decode (.slot 0b001111#6) = .slotHold ∧
    decode (.slot 0b011111#6) = .slotTake := by decide
theorem test_poll_words_select :
    operationsOf (stateOf tiny (slotE 0) (decS false false true 10) synIdle) 0b01010#5 =
      [.decSample true false, .decRestEmit] ∧
    operationsOf (stateOf tiny (slotE 0) (decS false false true 11) synIdle) 0b01010#5 =
      [.decSample true false, .decRestDiscard] ∧
    operationsOf (stateOf tiny (slotE 0) decZero synIdle) 0b01011#5 =
      [.decSample true true, .decRestIdle] ∧
    operationsOf (stateOf tiny (slotE 0) decZero synIdle) 0b01001#5 =
      [.decSample false true, .decMoveCount] ∧
    operationsOf (stateOf tiny (slotE 0) (decS false true false 4) synIdle) 0b01001#5 =
      [.decSample false true, .decMoveHold] := by decide
theorem test_tick_words_select :
    operationsOf (stateOf tiny (slotP 5 0) decZero synIdle) 0b00100#5 = [.synStart] ∧
    operationsOf (stateOf tiny (slotE 0) decZero synIdle) 0b00100#5 = [.synNop] ∧
    operationsOf (stateOf tiny (slotP 5 0) decZero (synS 1 0 0 3 2 0)) 0b00100#5 = [.synGen] ∧
    operationsOf (stateOf tiny (slotP 5 0) decZero (synS 0 0 0 3 2 0)) 0b00100#5 = [.synFinish] := by
  decide
theorem test_table_word_rows :
    decodeTableWord 8 0x10 = some .cycReset ∧ decodeTableWord 8 0x0C = some (.cycBoth false false) ∧
    decodeTableWord 8 0x20 = some (.slotPush 0#4) ∧
    decodeTableWord 8 0x30 = some (.slotPushTake 0#4) ∧
    decodeTableWord 0 0 = some .slotHasPending ∧ decodeTableWord 8 0x40 = none := by decide
theorem test_rows_of_part_words :
    Laws.WordMatchesRow.Statement .decMoveCount ∧ Laws.WordMatchesRow.Statement .synStart :=
  ⟨Laws.WordMatchesRow.decMoveCount, Laws.WordMatchesRow.synStart⟩

/-! ## The slot: vectors X -/

theorem test_X2_hold : seen (slotOn 0x0F (slotAlone tiny (slotP 9 0))) =
    some (slotP 9 0, decZero, synIdle, false, none) := by decide
theorem test_X5_push : seen (slotOn 0x22 (slotAlone tiny (slotP 7 0))) =
    some (slotP 2 0, decZero, synIdle, false, none) := by decide
theorem test_X7_bad_push : seen (slotOn 0x2A (slotAlone tiny (slotP 4 0))) =
    some (slotP 4 0b10, decZero, synIdle, false, none) := by decide
theorem test_X9_take : seen (slotOn 0x10 (slotAlone tiny (slotP 3 0))) =
    some (slotE 0, decZero, synIdle, false, some 3) := by decide
theorem test_X12_empty_take : seen (slotOn 0x10 (slotAlone tiny (slotE 0b01))) =
    some (slotE 0b01, decZero, synIdle, false, some 15) := by decide
theorem test_X17_pushtake_syn_first : seen (slotOn 0x3C (slotAlone tiny (slotE 0))) =
    some (slotE 0b11, decZero, synIdle, false, some 15) := by decide
theorem test_X18_pushtake_dec_first : seen (slotOn 0x3C (slotAlone tinyDec (slotP 5 0))) =
    some (slotE 0b10, decZero, synIdle, false, some 5) := by decide
/-- R92: `take_digit` is the current `slot_digit` in a cycle without a take. -/
theorem test_take_digit_without_a_take :
    ∃ t, exec .slotHold (slotAlone tiny (slotP 9 0)) = .next t ∧ t.out.take = false ∧
      t.out.takeDigit = 9#4 ∧
      ∃ u, exec .cycNop (slotAlone tiny (slotE 0)) = .next u ∧ u.out.take = false ∧
        u.out.takeDigit = 15#4 :=
  ⟨_, rfl, rfl, rfl, _, rfl, rfl, rfl⟩
theorem test_pending_in_the_cycle_of_X3 :
    ∃ t, exec .slotHasPending (slotAlone tiny (slotE 0)) = .next t ∧ t.out.pending = false ∧
      ∃ u, exec (.slotPush 0) (slotAlone tiny (slotE 0)) = .next u ∧ u.out.pending = false ∧
        u.pending = true :=
  ⟨_, rfl, rfl, _, rfl, rfl, rfl⟩

/-! ## The decoder: vectors E -/

theorem test_E16_poll_overwrites :
    seen (exec (.decTick true true) (stateOf tiny (slotP 4 0) (decS false true false 10) synIdle)) =
      some (slotP 0 0, decS true true true 0, synIdle, false, none) := by decide
theorem test_E20_no_edge_after_rest :
    seen (exec (.decTick false true) (stateOf tiny (slotP 3 0) (decS true true false 0) synIdle)) =
      some (slotP 3 0, decS false true true 0, synIdle, false, none) := by decide
theorem test_sample_example :
    seen (exec (.decSample true false) (stateOf tiny (slotE 0) (decS true true false 0) synIdle)) =
      some (slotE 0, decS true false true 0, synIdle, false, none) := by decide
theorem test_emit_of_ten_is_zero :
    seen (exec .decRestEmit (stateOf tiny (slotE 0) (decS true false false 10) synIdle)) =
      some (slotP 0 0, decS true false false 0, synIdle, false, none) := by decide
theorem test_discard_of_eleven :
    seen (exec .decRestDiscard (stateOf tiny (slotP 4 0) (decS true false true 11) synIdle)) =
      some (slotP 4 0, decS true false true 0, synIdle, false, none) := by decide
theorem test_rest_idle :
    seen (exec .decRestIdle (stateOf tiny (slotE 0) (decS true true false 0) synIdle)) =
      some (slotE 0, decS true true false 0, synIdle, false, none) := by decide
theorem test_count_saturates :
    seen (exec .decMoveCount (stateOf tiny (slotE 0) (decS false true false 15) synIdle)) =
      some (slotE 0, decS false true false 15, synIdle, false, none) := by decide
theorem test_move_hold :
    seen (exec .decMoveHold (stateOf tiny (slotE 0) (decS false false true 4) synIdle)) =
      some (slotE 0, decS false false true 4, synIdle, false, none) := by decide
theorem test_idle_part_not_selected :
    refusedAs (exec .decRestIdle (stateOf tiny (slotE 0) (decS true true false 1) synIdle)) =
      some .notSelected := by decide

/-! ## The synthesizer: vectors Y -/

theorem test_Y3_start :
    seen (exec .synStart (stateOf Config.ref (slotP 0 0) decZero (synS (-1) 24 12 6 3 0))) =
      some (slotE 0, decZero, synS 6250 0 0 5 4 0, false, some 0) := by decide +kernel
theorem test_Y12_start_of_no_samples :
    seen (exec .synStart (stateOf { Config.ref with durationMs := none, toneTicks := 0 } (slotP 5 0)
      decZero synIdle)) = some (slotE 0, decZero, synS 0 0 0 5 3 0, false, some 5) := by
  decide +kernel
theorem test_Y7_one_phase_wraps :
    seen (exec .synGen (stateOf Config.ref (slotE 0) decZero (synS 1 252 250 6 5 77))) =
      some (slotE 0, decZero, synS 0 2 255 6 5 112, true, none) := by decide +kernel
theorem test_Y11_both_phases_wrap :
    seen (exec .synGen (stateOf tiny (slotE 0) decZero (synS 2 7 6 3 2 0))) =
      some (slotE 0, decZero, synS 1 2 0 3 2 18, true, none) := by decide
theorem test_Y9_finish_leaves_the_slot :
    seen (exec .synFinish (stateOf Config.ref (slotP 2 0) decZero (synS 0 18 62 5 3 210))) =
      some (slotP 2 0, decZero, synS (-1) 18 62 5 3 0, true, none) := by decide +kernel
theorem test_Y13_other_silence :
    seen (exec .synFinish (stateOf { Config.ref with silenceLevel := 128 } (slotE 0) decZero
      (synS 0 24 12 6 3 168))) = some (slotE 0, decZero, synS (-1) 24 12 6 3 128, true, none) := by
  decide +kernel
theorem test_Y1_nop : seen (exec .synNop (stateOf Config.ref (slotE 0) decZero synIdle)) =
    some (slotE 0, decZero, synIdle, false, none) := by decide +kernel
theorem test_Y6_tick_generates :
    seen (exec .synTick (stateOf Config.ref (slotP 7 0) decZero (synS 3 6 3 6 3 128))) =
      some (slotP 7 0, decZero, synS 2 12 6 6 3 141, true, none) := by decide +kernel
theorem test_Y4_tick_starts :
    seen (exec .synTick (stateOf ref4 (slotP 3 0) decZero (synS (-1) 24 12 6 3 0))) =
      some (slotE 0, decZero, synS 4 0 0 6 3 0, false, some 3) := by decide +kernel
theorem test_gen_reads_past_the_table :
    refusedAs (exec .synGen (stateOf tiny (slotE 0) decZero (synS 1 8 0 3 2 0))) =
      some .romIndexOutOfRange := by decide
theorem test_mean_vectors : mean 0 255 = 127 ∧ mean 37 218 = 127 ∧ mean 255 254 = 254 ∧
    mean 255 255 = 255 ∧ mean 1 0 = 0 := by decide
theorem test_V5_advance : advance Config.ref 255 255 = 254 ∧ advance Config.ref 255 1 = 0 ∧
    advance Config.ref 0 255 = 255 ∧ advance tiny 5 3 = 0 ∧ advance tiny 4 3 = 7 := by
  decide +kernel
theorem test_V6_steps : Config.ref.phaseStep 1336 = 5 ∧ Config.ref.phaseStep 770 = 3 := by decide
theorem test_tiny_steps : tiny.digitStep =
    [(3, 2), (2, 1), (3, 1), (3, 1), (2, 2), (3, 2), (3, 2), (2, 2), (3, 2), (3, 2)] := by
  decide
theorem test_tiny_widths : tiny.phw = 3 ∧ tiny.aw = 8 ∧ tiny.rcw = 5 := by decide
theorem test_truncated_ticks : toneTicksFor 100 62500 = 6250 ∧ toneTicksFor 1 62500 = 62 ∧
    toneTicksFor 0 62500 = 0 := by decide

/-! ## Whole cycles: vectors Z -/

theorem test_Z2_reset_wins :
    seen (cycleOn 0x1F (stateOf tiny (slotP 5 0b11) (decS true true true 7) (synS 3 6 3 3 2 128))) =
      some (slotE 0, decZero, synIdle, false, none) := by decide
theorem test_Z3_nop_keeps :
    seen (cycleOn 0x03 (stateOf tiny (slotP 5 0) (decS false true false 7) (synS 3 6 3 3 2 128))) =
      some (slotP 5 0, decS false true false 7, synS 3 6 3 3 2 128, false, none) := by
  decide
theorem test_Z4_first_poll : seen (cycleOn 0x09 (stateOf Config.ref (slotE 0) decZero synIdle)) =
    some (slotE 0, decS false true false 1, synIdle, false, none) := by decide +kernel
theorem test_E17_discard_cycle :
    seen (cycleOn 0x0A (stateOf tiny (slotP 4 0) (decS false true false 11) synIdle)) =
      some (slotP 4 0, decS true false true 0, synIdle, false, none) := by decide
theorem test_Z5_sample_tick : seen (cycleOn 0x07 (stateOf Config.ref (slotP 5 0) decZero synIdle)) =
    some (slotE 0, decZero, synS 6250 0 0 5 3 0, false, some 5) := by decide +kernel
theorem test_Y10_finish_cycle :
    seen (cycleOn 0x04 (stateOf Config.ref (slotE 0) decZero (synS 0 24 12 6 3 168))) =
      some (slotE 0, decZero, synS (-1) 24 12 6 3 0, true, none) := by decide +kernel
theorem test_Z6_both_syn_first :
    seen (cycleOn 0x0E (stateOf Config.ref (slotP 1 0) (decS false false true 2) synIdle)) =
      some (slotP 2 0, decS true false false 0, synS 6250 0 0 5 3 0, false, some 1) := by
  decide +kernel
theorem test_Z7_both_dec_first :
    seen (cycleOn 0x0E (stateOf { Config.ref with coincidentOrder := .decFirst } (slotP 1 0)
      (decS false false true 2) synIdle)) =
      some (slotE 0, decS true false false 0, synS 6250 0 0 5 3 0, false, some 2) := by
  decide +kernel

/-! ## Witnesses: for every statement with hypotheses, inputs that meet them together, and for a
statement with several clauses inputs for each at the ends of its range -/

/-- The four classes of the synthesizer: idle and empty, idle and pending, generating, finishing. -/
def wIdle : State := State.resetWith tiny
def wPending (d : Digit) : State := stateOf tiny (slotP d 0) (decS false false true 2) synIdle
def wGen (hp lp : Nat) : State := stateOf tiny (slotP 5 0) (decS false true false 11) (synS 1 hp lp 3 2 0)
def wFinish : State := stateOf tiny (slotE 0) decZero (synS 0 0 0 3 2 18)
/-- A decoder with a given count. -/
def wCount (n : BitVec 4) : State := stateOf tiny (slotE 0) (decS false false true n) synIdle

/-- A state before the first reset, its registers holding anything. -/
def wUnreset : State := { wGen 7 7 with begun := false, slot := slotP 12 0b11 }
/-- R272, R221: before the first reset a tick is refused, and a reset cycle begins the run. -/
theorem test_run_begins_with_reset :
    refusedAs (cycleOn 0x0F wUnreset) = some .beforeReset ∧
    seen (cycleOn 0x1F wUnreset) = some (slotE 0, decZero, synIdle, false, none) ∧
    ∃ t, cycleOn 0x1F wUnreset = .next t ∧ t.begun = true :=
  ⟨by decide, by decide, _, rfl, rfl⟩
theorem witness_tables_idle : TablesInRange wIdle := ⟨by decide, by decide⟩
theorem witness_tables_pending : TablesInRange (wPending 0) ∧ TablesInRange (wPending 9) :=
  ⟨⟨by decide, by decide⟩, ⟨by decide, by decide⟩⟩
theorem witness_tables_gen : TablesInRange (wGen 0 7) ∧ TablesInRange (wGen 7 0) :=
  ⟨⟨by decide, by decide⟩, ⟨by decide, by decide⟩⟩
theorem witness_tables_finish : TablesInRange wFinish := ⟨by decide, by decide⟩
theorem witness_admitted : wIdle.cfg.admitted = true ∧ (wPending 3).cfg.admitted = true ∧
    (wGen 7 6).cfg.admitted = true ∧ wFinish.cfg.admitted = true ∧
    (stateOf tinyDec (slotE 0) decZero synIdle).cfg.admitted = true := by decide

theorem witness_DecodeOfEncodeIsTheInstruction :
    Instr.cycleOf (.slotPush 15#4) = .slotPush 15#4 ∧ Instr.cycleOf .cycSyn = .cycSyn ∧
    Instr.cycleOf (.decTick true false) ≠ .decTick true false := by decide
theorem witness_WordMatchesItsRowExactly : Instr.cycleOf (.cycBoth true false) = .cycBoth true false ∧
    (decode (.ports 0x0E)).row = (Instr.cycBoth true false).row ∧
    (decode (.ports 0x1E)).row ≠ (Instr.cycBoth true false).row := by decide
theorem witness_CommandWordSelectsItsOperation :
    ((true : Line) = true ∨ (true : Line) = false) ∧ ((false : Line) = true ∨ (false : Line) = false) := by
  decide
theorem witness_StepRunsTheNextWord :
    wIdle.trace = [] ∧ ({ wIdle with trace := [.ports 0x1F] } : State).trace = .ports 0x1F :: [] ∧
    wIdle.begun = true ∧ wUnreset.begun = false ∧ decode (.ports 0x0F) ≠ .cycReset ∧
    decode (.ports 0x1F) = .cycReset := by decide
theorem witness_PlacedTableWordRuns : decodeTableWord 8 0x1F = some .cycReset ∧
    decodeTableWord 8 0x20 = some (.slotPush 0) ∧ decodeTableWord 8 0x3F = some (.slotPushTake 15) ∧
    decodeTableWord 0 0 = some .slotHasPending ∧ wIdle.begun = true ∧ wUnreset.begun = false := by
  decide
theorem witness_CycResetGivesTheResetRegisters : (wGen 7 6).cfg.admitted = true := by decide
theorem witness_QuietOperationsChangeNoRegister : (Instr.slotHasPending = .cycNop ∨
    Instr.slotHasPending = .slotHold ∨ Instr.slotHasPending = .slotHasPending) ∧
    (wPending 3).cfg.admitted = true := by decide
theorem witness_CycDecPerformsOnePoll : wIdle.cfg.admitted = true ∧
    selectPoll (wCount 10).dec true false = .restEmit ∧
    selectPoll (wCount 11).dec true false ≠ .restEmit := by decide
theorem witness_CycSynPerformsOneSampleTick : (wPending 9).cfg.admitted = true ∧
    TablesInRange (wPending 9) ∧
    selectTick (wPending 9).syn.remainingCycles (wPending 9).slot.valid = .start ∧
    selectTick wIdle.syn.remainingCycles wIdle.slot.valid ≠ .start :=
  ⟨by decide, witness_tables_pending.2, by decide, by decide⟩
theorem witness_CycBothIsTheTwoEventsInOrder : (wPending 0).cfg.admitted = true ∧
    TablesInRange (wPending 0) ∧ (wPending 0).cfg.coincidentOrder = .synFirst ∧
    (stateOf tinyDec (slotE 0) decZero synIdle).cfg.admitted = true ∧
    TablesInRange (stateOf tinyDec (slotE 0) decZero synIdle) ∧
    (stateOf tinyDec (slotE 0) decZero synIdle).cfg.coincidentOrder = .decFirst :=
  ⟨by decide, witness_tables_pending.1, rfl, by decide, ⟨by decide, by decide⟩, rfl⟩
theorem witness_OrdersAgreeUnlessAPushMeetsIdle : (wGen 7 0).cfg.admitted = true ∧
    TablesInRange (wGen 7 0) ∧ ¬ (selectPoll (wGen 7 0).dec true false = .restEmit ∧
      (wGen 7 0).syn.remainingCycles < 0) :=
  ⟨by decide, witness_tables_gen.2, by decide⟩
theorem witness_PushMeetsAnIdleSynthesizer : (wCount 10).cfg.admitted = true ∧
    TablesInRange (wCount 10) ∧ (wCount 10).syn.remainingCycles < 0 ∧
    digitOfPulses (wCount 10).dec.pulseCount.toNat = some 0 ∧ (wCount 10).slot.valid = false ∧
    TablesInRange (wPending 9) ∧ (wPending 9).syn.remainingCycles < 0 ∧
    digitOfPulses (wPending 9).dec.pulseCount.toNat = some 2 ∧ (wPending 9).slot.valid = true :=
  ⟨by decide, ⟨by decide, by decide⟩, by decide, by decide, by decide, witness_tables_pending.2,
    by decide, by decide, by decide⟩
theorem witness_CycleIsItsOperations : (wPending 3).cfg.admitted = true ∧
    (∃ t, exec (decodeCommand 0x0E) (wPending 3) = .next t) ∧
    ∃ u, execAll (operationsOf (wPending 3) 0x0E) (wPending 3) = .next u :=
  ⟨by decide, ⟨_, rfl⟩, ⟨_, rfl⟩⟩
theorem witness_SlotFollowsItsCommand : rstBit 0x0E = false ∧
    pushBit (slotCommandOf (wPending 3) 0x0E) = true ∧
    takeBit (slotCommandOf (wPending 3) 0x0E) = true ∧
    ∃ t, exec (decodeCommand 0x0E) (wPending 3) = .next t :=
  ⟨by decide, by decide, by decide, _, rfl⟩
theorem witness_RunAgreesWithItsEventView : wIdle.cfg.admitted = true ∧ wIdle.begun = true ∧
    eventWords wIdle.cfg 0x0D = [0x04, 0x09] ∧ eventWords tinyDec 0x0D = [0x09, 0x04] := by decide

theorem witness_SlotPushStoresOrRaises : wIdle.cfg.admitted = true ∧
    (9#4 : Digit).toNat ≤ 9 ∧ 10 ≤ (10#4 : Digit).toNat ∧ 10 ≤ (15#4 : Digit).toNat := by decide
theorem witness_SlotTakeReturnsAndEmpties : (wPending 3).cfg.admitted = true ∧
    (wPending 3).slot.valid = true ∧ wIdle.cfg.admitted = true ∧ wIdle.slot.valid = false := by decide
theorem witness_SlotPushTakeIsSerial : (wPending 1).cfg.admitted = true ∧
    (wPending 1).cfg.coincidentOrder = .synFirst ∧ tinyDec.admitted = true ∧
    (State.resetWith tinyDec).cfg.coincidentOrder = .decFirst := by decide
theorem witness_SecondPushOverwritesTheFirst : wIdle.cfg.admitted = true ∧
    (0#4 : Digit).toNat ≤ 9 ∧ (9#4 : Digit).toNat ≤ 9 := by decide

theorem witness_DecSampleRecordsTheLines : wIdle.cfg.admitted = true := by decide
theorem witness_DecTickIsOnePoll : (wCount 15).cfg.admitted = true ∧
    (∃ t, exec (.decTick false true) (wCount 15) = .next t) ∧
    ∃ u, exec (.cycBoth false true) (wCount 15) = .next u :=
  ⟨by decide, ⟨_, rfl⟩, ⟨_, rfl⟩⟩
theorem witness_DecRestEmitPushesTheDigit : (wCount 1).cfg.admitted = true ∧
    1 ≤ (wCount 1).dec.pulseCount.toNat ∧ (wCount 1).dec.pulseCount.toNat ≤ 10 ∧
    1 ≤ (wCount 10).dec.pulseCount.toNat ∧ (wCount 10).dec.pulseCount.toNat ≤ 10 := by decide
theorem witness_DecRestDiscardAndRestIdle : (wCount 11).cfg.admitted = true ∧
    11 ≤ (wCount 11).dec.pulseCount.toNat ∧ 11 ≤ (wCount 15).dec.pulseCount.toNat ∧
    (wCount 0).dec.pulseCount = 0#4 := by decide
theorem witness_DecMoveCountAndMoveHold : (wCount 14).cfg.admitted = true := by decide
theorem witness_RotationPushesItsDigit : wIdle.cfg.admitted = true ∧ wIdle.begun = true ∧
    wIdle.dec.pulseCount = 0#4 ∧ risingEdges wIdle.dec.pulseSignal [false, true, false, true, true] = 2 := by
  decide
theorem witness_DialPushesItsDigit : wIdle.cfg.admitted = true ∧ wIdle.begun = true ∧
    wIdle.dec.pulseCount = 0#4 ∧
    digitOfPulses 0 = none ∧ digitOfPulses 10 = some 0 ∧ digitOfPulses 11 = none := by decide

theorem witness_SynTickIsOneSampleTick : wFinish.cfg.admitted = true ∧
    wFinish.syn.remainingCycles = 0 ∧ 0 < (wGen 7 0).syn.remainingCycles ∧
    (wGen 7 0).syn.highPhase < (wGen 7 0).cfg.tableLen ∧
    (wGen 7 0).syn.lowPhase < (wGen 7 0).cfg.tableLen ∧
    (wPending 9).syn.remainingCycles < 0 ∧ (wPending 9).slot.valid = true ∧
    (wPending 9).slot.digit.toNat ≤ 9 ∧ wIdle.syn.remainingCycles < 0 ∧
    wIdle.slot.valid = false ∧ (wPending 9).cfg.coincidentOrder = .synFirst ∧
    (∃ t, exec .synTick (wPending 9) = .next t) ∧
    ∃ u, exec (.cycBoth true false) (wPending 9) = .next u :=
  ⟨by decide, by decide, by decide, by decide, by decide, by decide, by decide, by decide, by decide,
    by decide, by decide, ⟨_, rfl⟩, ⟨_, rfl⟩⟩
theorem witness_SynTickPerformsTheSelectedPart : wFinish.cfg.admitted = true ∧
    wFinish.syn.remainingCycles = 0 ∧ 0 < (wGen 0 0).syn.remainingCycles ∧
    (wPending 0).syn.remainingCycles < 0 ∧ (wPending 0).slot.valid = true ∧
    wIdle.syn.remainingCycles < 0 ∧ wIdle.slot.valid = false := by decide
theorem witness_SynFinishSilences : wFinish.cfg.admitted = true ∧
    wFinish.syn.remainingCycles = 0 := by decide
theorem witness_SynGenWritesOneSample : (wGen 7 0).cfg.admitted = true ∧
    0 < (wGen 7 0).syn.remainingCycles ∧ (wGen 7 0).syn.highPhase < (wGen 7 0).cfg.tableLen ∧
    (wGen 7 0).syn.lowPhase < (wGen 7 0).cfg.tableLen := by decide
theorem witness_SynStartLoadsTheTone : (wPending 9).cfg.admitted = true ∧
    (wPending 9).syn.remainingCycles < 0 ∧ (wPending 9).slot.valid = true ∧
    (wPending 9).slot.digit.toNat ≤ 9 := by decide
theorem witness_SynNopKeepsEveryRegister : wIdle.cfg.admitted = true ∧
    wIdle.syn.remainingCycles < 0 ∧ wIdle.slot.valid = false := by decide
theorem witness_ToneControlTransitions :
    (∃ t, exec .synTick wIdle = .next t) ∧ wIdle.syn.remainingCycles < 0 ∧ wIdle.slot.valid = false ∧
    (∃ t, exec .synTick (wPending 0) = .next t) ∧ (wPending 0).slot.valid = true ∧
    (∃ t, exec .synTick (wGen 7 7) = .next t) ∧ 0 < (wGen 7 7).syn.remainingCycles ∧
    (∃ t, exec .synTick wFinish = .next t) ∧ wFinish.syn.remainingCycles = 0 ∧
    Instr.slotTake ≠ .cycReset ∧ (∃ t, exec .slotTake (wGen 7 7) = .next t) ∧
    rstBit 0x0B = false ∧ tickHiBit 0x0B = false ∧
    ∃ t, exec (decodeCommand 0x0B) (wGen 7 7) = .next t :=
  ⟨⟨_, rfl⟩, by decide, by decide, ⟨_, rfl⟩, by decide, ⟨_, rfl⟩, by decide, ⟨_, rfl⟩, by decide,
    by decide, ⟨_, rfl⟩, by decide, by decide, ⟨_, rfl⟩⟩
theorem witness_DigitPushedDuringAToneWaits : 0 ≤ wFinish.syn.remainingCycles ∧
    (∃ t, exec .synTick wFinish = .next t) ∧ 0 ≤ (wGen 7 7).syn.remainingCycles ∧
    ∃ t, exec .synTick (wGen 7 7) = .next t :=
  ⟨by decide, ⟨_, rfl⟩, by decide, ⟨_, rfl⟩⟩
theorem witness_AddersAreExactAtTheirWidths : 255 < 2 ^ 8 ∧ 255 ≤ tiny.ampMax ∧
    tiny.admitted = true ∧ 7 < tiny.tableLen ∧ 0 < tiny.tableLen ∧ tiny.tableLen = 2 ^ tiny.phw := by
  decide
theorem witness_ToneFollowsItsClosedForm : (wPending 9).cfg.admitted = true ∧
    (wPending 9).begun = true ∧
    (wPending 9).syn.remainingCycles < 0 ∧ (wPending 9).slot.valid = true ∧
    (wPending 9).cfg.digitFreq[(wPending 9).slot.digit.toNat]? = some ⟨1477, 852⟩ ∧
    0 ≤ (wPending 9).cfg.toneTicks ∧ 8 ≤ (wPending 9).cfg.toneTicks := by decide
theorem witness_ToneWritesItsSamplesThenSilence : (wPending 0).cfg.admitted = true ∧
    (wPending 0).begun = true ∧
    (wPending 0).syn.remainingCycles < 0 ∧ (wPending 0).slot.valid = true ∧
    (wPending 0).cfg.digitFreq[(wPending 0).slot.digit.toNat]? = some ⟨1336, 941⟩ ∧
    7 < (wPending 0).cfg.toneTicks := by decide
theorem witness_DialledDigitSoundsAndTheBlockReturnsToIdle :
    tiny.admitted = true ∧ digitOfPulses 1 = some 1 ∧ digitOfPulses 9 = some 9 ∧
      digitOfPulses 10 = some 0 := by decide

theorem witness_PhaseStepsAreNearestIntegers : tiny.admitted = true := by decide
theorem witness_DerivedWidthsAreLeast : tiny.admitted = true ∧ tiny.tableLen ≤ 2 ^ 3 ∧
    tiny.ampMax < 2 ^ 8 ∧ 2 ≤ 5 ∧ tiny.toneTicks ≤ 2 ^ (5 - 1) - 1 := by decide
theorem witness_Ranges : Ranges wIdle ∧ Ranges (wPending 9) ∧ Ranges (wGen 7 0) ∧ Ranges wFinish :=
  ⟨⟨by decide, ⟨by decide, by decide⟩, by constructor <;> decide⟩,
    ⟨by decide, ⟨by decide, by decide⟩, by constructor <;> decide⟩,
    ⟨by decide, ⟨by decide, by decide⟩, by constructor <;> decide⟩,
    ⟨by decide, ⟨by decide, by decide⟩, by constructor <;> decide⟩⟩
theorem witness_RegistersFitTheirWidths : Ranges wIdle ∧ wIdle.syn.remainingCycles < 0 :=
  ⟨witness_Ranges.1, by decide⟩

theorem witness_FaultBitsAreSticky : Instr.slotTake ≠ .cycReset ∧
    (∃ t, exec .slotTake (slotAlone tiny (slotE 0b01)) = .next t) ∧
    (slotAlone tiny (slotE 0b01)).faultSet .emptyTake = true ∧
    (∃ t, exec .slotHold (slotAlone tiny (slotE 0b10)) = .next t) ∧
    (slotAlone tiny (slotE 0b10)).faultSet .badDigit = true :=
  ⟨by decide, ⟨_, rfl⟩, by decide, ⟨_, rfl⟩, by decide⟩
theorem witness_OnlySlotOperationsRaiseFaults :
    (∃ t, exec .slotTake wIdle = .next t ∧ wIdle.faultSet .emptyTake = false ∧
      t.faultSet .emptyTake = true) ∧
    ∃ t, exec (.slotPush 10) wIdle = .next t ∧ wIdle.faultSet .badDigit = false ∧
      t.faultSet .badDigit = true :=
  ⟨⟨_, rfl, by decide, by decide⟩, ⟨_, rfl, by decide, by decide⟩⟩
theorem witness_FaultBitsInfluenceNothing : ∃ t, exec .slotTake wIdle = .next t := ⟨_, rfl⟩
theorem witness_RecordRegistersInfluenceNothing :
    ∃ t, exec (.cycDec false true) (wPending 3) = .next t := ⟨_, rfl⟩
theorem witness_EachAgentWritesOnlyItsOwnRegisters :
    (∃ t, exec (.decTick true false) (wCount 10) = .next t) ∧
    (Instr.decTick true false).family = .dec ∧
    (∃ t, exec .synStart (wPending 9) = .next t) ∧ Instr.synStart.family = .syn ∧
    (∃ t, exec (.slotPushTake 12) wIdle = .next t) ∧ (Instr.slotPushTake 12).family = .slot :=
  ⟨⟨_, rfl⟩, rfl, ⟨_, rfl⟩, rfl, ⟨_, rfl⟩, rfl⟩
theorem witness_ConfigurationIsNeverWritten : ∃ t, exec .cycReset (wGen 7 0) = .next t := ⟨_, rfl⟩
theorem witness_LevelChangesOnlyWithItsStrobeOrReset : Instr.synStart ≠ .cycReset ∧
    (∃ t, exec .synStart (wPending 3) = .next t ∧ t.out.levelWr = false) ∧
    ∃ t, exec (decodeCommand 0x04) wFinish = .next t :=
  ⟨by decide, ⟨_, rfl, rfl⟩, ⟨_, rfl⟩⟩
theorem witness_PortsShowTheStateOfTheCycle :
    (∃ t, exec .cycSyn (wGen 7 0) = .next t ∧ t.out.take = false) ∧
    ∃ t, exec .slotTake (wPending 3) = .next t ∧ (wPending 3).cfg.coincidentOrder = .synFirst :=
  ⟨⟨_, rfl, rfl⟩, _, rfl, rfl⟩
theorem witness_UnadmittedConfigurationIsRefused :
    (State.resetWith { tiny with silenceLevel := 256 }).cfg.admitted = false := by decide
theorem witness_PartsAreRefusedWhereTheyHaveNoMeaning : wIdle.cfg.admitted = true ∧
    (wCount 1).dec.pulseCount.toNat ≠ 0 ∧ (wCount 0).dec.pulseCount.toNat = 0 ∧
    11 ≤ (wCount 11).dec.pulseCount.toNat ∧ (wCount 10).dec.pulseCount.toNat ≤ 10 ∧
    (wGen 0 0).syn.remainingCycles ≠ 0 ∧ wFinish.syn.remainingCycles ≤ 0 ∧
    0 ≤ wFinish.syn.remainingCycles ∧ wIdle.slot.valid = false ∧ (wPending 0).slot.valid = true ∧
    0 < (wGen 8 0).syn.remainingCycles ∧ (wGen 8 0).cfg.tableLen ≤ (wGen 8 0).syn.highPhase ∧
    (wGen 0 8).cfg.tableLen ≤ (wGen 0 8).syn.lowPhase ∧ (wPending 10).syn.remainingCycles < 0 ∧
    (wPending 10).slot.valid = true ∧ 10 ≤ (wPending 10).slot.digit.toNat := by decide

theorem witness_ResetMeetsTheInvariant : tiny.admitted = true ∧ ref4.admitted = true :=
  ⟨test_tiny_admitted, test_ref4_admitted⟩
theorem witness_EveryOperationKeepsTheRanges : Ranges (wPending 9) ∧
    ∃ t, exec (.slotPush 12) (wPending 9) = .next t :=
  ⟨witness_Ranges.2.1, _, rfl⟩
/-- A tone about to start, with a word that starts it. -/
def wRunning : State := { wPending 9 with trace := [.ports 0x0E] }
theorem witness_Inv : Inv wRunning :=
  ⟨⟨by decide, ⟨by decide, by decide⟩, by constructor <;> decide⟩, rfl, rfl,
    fun w h => ⟨0x0E, List.mem_singleton.mp h⟩⟩
theorem witness_StepKeepsTheInvariant : Inv wRunning ∧ ∃ t, step wRunning = .next t :=
  ⟨witness_Inv, _, rfl⟩
theorem witness_StepCompletesUnderTheInvariant : Inv wRunning ∧ wRunning.trace ≠ [] :=
  ⟨witness_Inv, by decide⟩
theorem witness_EveryCommandSequenceRunsFromReset : tinyDec.admitted = true ∧
    wUnreset.cfg.admitted = true ∧ wUnreset.begun = false ∧ rstBit 0x1F = true ∧
    rstBit 0x0F = false := by decide

end Sys2Proof.Tests
end

section
/-! SUPPORT. Every operation is one event inside one cycle, and what each event leaves alone: the
configuration, the input words to come and whether reset has been applied (00_scope.md R7, R8). -/

namespace Sys2Proof.Machine

variable {s t u : State} {i : Instr}

/-- What an operation does inside its opened cycle. -/
def event : Instr → State → Result
  | .cycReset => fun s => .next (resetRegisters s)
  | .cycNop | .slotHold | .slotHasPending => .next
  | .cycDec m p | .decTick m p => poll m p
  | .cycSyn | .synTick => sampleTick
  | .cycBoth m p => bothTicks m p
  | .decSample m p => fun s => .next (sampleLines m p s)
  | .decRestIdle => pollPart .restIdle
  | .decRestEmit => pollPart .restEmit
  | .decRestDiscard => pollPart .restDiscard
  | .decMoveCount => pollPart .moveCount
  | .decMoveHold => pollPart .moveHold
  | .synFinish => tickPart .finish
  | .synGen => tickPart .gen
  | .synStart => tickPart .start
  | .synNop => tickPart .nop
  | .slotPush d => fun s => .next (slotPush d s)
  | .slotTake => fun s => .next (slotTake s)
  | .slotPushTake d => fun s => .next (slotPushTake d s)

theorem exec_eq_inCycle_event (i : Instr) (s : State) : exec i s = inCycle (event i) s := by
  cases i <;> rfl

theorem exec_next_iff_event :
    exec i s = .next t ↔ s.cfg.admitted = true ∧ event i (openCycle s) = .next t := by
  rw [exec_eq_inCycle_event, inCycle_next_iff]

theorem inCycle_of_not_admitted {op : State → Result} (h : s.cfg.admitted = false) :
    inCycle op s = .refused .configurationNotAdmitted := by
  simp [inCycle, h]

/-- `t` belongs to the same run of the same block as `s`: registers and outputs alone may differ. -/
structure SameContext (s t : State) : Prop where
  cfg : t.cfg = s.cfg
  trace : t.trace = s.trace
  begun : t.begun = s.begun

namespace SameContext

theorem trans (h : SameContext s t) (h' : SameContext t u) : SameContext s u :=
  ⟨h'.cfg.trans h.cfg, h'.trace.trans h.trace, h'.begun.trans h.begun⟩

theorem openCycle (s : State) : SameContext s (openCycle s) := ⟨rfl, rfl, rfl⟩

theorem afterPoll (m p : Line) (s : State) : SameContext s (afterPoll m p s) := ⟨rfl, rfl, rfl⟩

theorem slotPush (d : Digit) (s : State) : SameContext s (slotPush d s) := by
  constructor <;> simp

theorem slotTake (s : State) : SameContext s (slotTake s) := by
  constructor <;> simp

theorem slotPushTake (d : Digit) (s : State) : SameContext s (slotPushTake d s) := by
  unfold Machine.slotPushTake
  split
  · exact (slotTake s).trans (slotPush d _)
  · exact (slotPush d s).trans (slotTake _)

theorem sampleTick (h : sampleTick s = .next t) : SameContext s t := by
  obtain ⟨-, hcfg, htrace, -⟩ := sampleTick_frame h
  exact ⟨hcfg, htrace, sampleTick_begun h⟩

theorem poll {m p : Line} (h : poll m p s = .next t) : SameContext s t := by
  obtain rfl : Machine.afterPoll m p s = t := by simpa [poll_eq_afterPoll] using h
  exact afterPoll m p s

theorem bothTicks {m p : Line} (h : bothTicks m p s = .next t) : SameContext s t := by
  unfold Machine.bothTicks at h
  split at h <;> obtain ⟨u, hfirst, hsecond⟩ := serially_next_iff.mp h
  · exact (sampleTick hfirst).trans (poll hsecond)
  · exact (poll hfirst).trans (sampleTick hsecond)

theorem pollPart (a : PollPart) (h : pollPart a s = .next t) : SameContext s t := by
  cases a with
  | restIdle => obtain ⟨-, rfl⟩ := restIdle_next_iff.mp h; exact ⟨rfl, rfl, rfl⟩
  | restEmit => obtain ⟨d, -, rfl⟩ := restEmit_next_iff.mp h; constructor <;> simp
  | restDiscard => obtain ⟨-, rfl⟩ := restDiscard_next_iff.mp h; exact ⟨rfl, rfl, rfl⟩
  | moveCount => obtain rfl := moveCount_next_iff.mp h; exact ⟨rfl, rfl, rfl⟩
  | moveHold => obtain rfl := moveHold_next_iff.mp h; exact ⟨rfl, rfl, rfl⟩

theorem tickPart (a : TickPart) (h : tickPart a s = .next t) : SameContext s t :=
  sampleTick (sampleTick_of_part a h)

/-- The one event that does not keep the context is the reset. -/
theorem event (hi : i ≠ .cycReset) (h : event i s = .next t) : SameContext s t := by
  cases i with
  | cycReset => exact absurd rfl hi
  | cycNop | slotHold | slotHasPending => cases h; exact ⟨rfl, rfl, rfl⟩
  | cycDec | decTick => exact poll h
  | cycSyn | synTick => exact sampleTick h
  | cycBoth => exact bothTicks h
  | decSample => cases h; exact ⟨rfl, rfl, rfl⟩
  | decRestIdle => exact pollPart .restIdle h
  | decRestEmit => exact pollPart .restEmit h
  | decRestDiscard => exact pollPart .restDiscard h
  | decMoveCount => exact pollPart .moveCount h
  | decMoveHold => exact pollPart .moveHold h
  | synFinish => exact tickPart .finish h
  | synGen => exact tickPart .gen h
  | synStart => exact tickPart .start h
  | synNop => exact tickPart .nop h
  | slotPush d => cases h; exact slotPush d s
  | slotTake => cases h; exact slotTake s
  | slotPushTake d => cases h; exact slotPushTake d s

theorem exec (hi : i ≠ .cycReset) (h : exec i s = .next t) : SameContext s t :=
  (openCycle s).trans (event hi (exec_next_iff_event.mp h).2)

end SameContext

/-- Settles O54: every operation is an event inside a cycle, and a cycle is refused as a whole. -/
theorem unadmittedConfigurationIsRefused : Obligations.UnadmittedConfigurationIsRefused := by
  intro i s h
  rw [exec_eq_inCycle_event, inCycle_of_not_admitted h]

/-- Settles O51: the reset writes `begun` alone among the three, every other operation none. -/
theorem configurationIsNeverWritten : Obligations.ConfigurationIsNeverWritten := by
  intro i s t h
  by_cases hi : i = .cycReset
  · subst hi
    obtain ⟨-, rfl⟩ := exec_cycReset_next_iff.mp h
    simp
  · obtain ⟨hcfg, htrace, hbegun⟩ := SameContext.exec hi h
    simp [hcfg, htrace, hbegun, hi]

end Sys2Proof.Machine
end

section
/-! SUPPORT. The derived widths: each is at most `k` exactly when its registers' range fits in `k` bits
(00_scope.md R6), and from it that the registers fit their widths (10_state.md R45,
30_encoding.md R98, R100). -/

namespace Sys2Proof

variable {c : Config} {k : Nat}

theorem Config.phw_le_iff (h : c.admitted = true) : c.phw ≤ k ↔ c.tableLen ≤ 2 ^ k := by
  have hlen := Machine.tableLen_ge_two c h
  rw [Config.phw, Nat.succ_le_iff, Nat.log2_lt (by omega)]
  omega

theorem Config.ampMax_pos (h : c.admitted = true) : 0 < c.ampMax := by
  simp [Config.admitted, Config.amplitudeOk] at h; omega

theorem Config.aw_le_iff (h : c.admitted = true) : c.aw ≤ k ↔ c.ampMax < 2 ^ k := by
  rw [Config.aw, Nat.succ_le_iff, Nat.log2_lt (Config.ampMax_pos h).ne']

theorem Config.two_le_rcw (c : Config) : 2 ≤ c.rcw := Nat.le_add_left 2 _

/-- No hypothesis on the tone ticks: with none of them the width is the least admitted, 2. -/
theorem Config.rcw_le_iff (hk : 2 ≤ k) : c.rcw ≤ k ↔ c.toneTicks ≤ 2 ^ (k - 1) - 1 := by
  rcases Nat.eq_zero_or_pos c.toneTicks with h0 | hpos
  · simpa [Config.rcw, h0] using hk
  · have hlog : c.toneTicks.log2 < k - 1 ↔ c.toneTicks < 2 ^ (k - 1) := Nat.log2_lt hpos.ne'
    have hpow := Nat.two_pow_pos (k - 1)
    unfold Config.rcw
    omega

theorem Config.toneTicks_lt (c : Config) : c.toneTicks < 2 ^ (c.rcw - 1) := by
  have hfit := (Config.rcw_le_iff c.two_le_rcw).mp le_rfl
  have hpow := Nat.two_pow_pos (c.rcw - 1)
  omega

/-- Settles O44: a width `n` with `n ≤ k ↔ fits k` fits at `k = n` and is the least that does. -/
theorem derivedWidthsAreLeast : Obligations.DerivedWidthsAreLeast := by
  intro c h
  exact ⟨⟨(Config.phw_le_iff h).mp le_rfl, fun _ => (Config.phw_le_iff h).mpr⟩,
    ⟨(Config.aw_le_iff h).mp le_rfl, fun _ => (Config.aw_le_iff h).mpr⟩,
    c.two_le_rcw, (Config.rcw_le_iff c.two_le_rcw).mp le_rfl,
    fun _ hk => (Config.rcw_le_iff hk).mpr⟩

namespace Machine

variable {r : SynRegs}

theorem remainingCyclesWord_toInt (h : SynInRange c r) :
    (remainingCyclesWord c r).toInt = r.remainingCycles := by
  have hlow := h.cyclesLow
  have hhigh := h.cyclesHigh
  have hfit : (c.toneTicks : Int) < 2 ^ (c.rcw - 1) := by exact_mod_cast c.toneTicks_lt
  have hrcw := c.two_le_rcw
  exact BitVec.toInt_ofInt_eq_self (by omega) (by omega) (by omega)

theorem remainingCyclesWord_idle (h : SynInRange c r) (hidle : r.remainingCycles < 0) :
    remainingCyclesWord c r = BitVec.allOnes c.rcw := by
  have hneg : r.remainingCycles = -1 := by have := h.cyclesLow; omega
  rw [remainingCyclesWord, hneg]
  exact BitVec.ofInt_neg.trans BitVec.neg_one_eq_allOnes

theorem slotWord_empty {r : SlotRegs} (h : SlotLegal r) (hv : r.valid = false) :
    slotWord r = 0b01111#5 := by
  simp [slotWord, hv, h.empty hv, emptyDigit]

theorem slotWord_pending {r : SlotRegs} (h : SlotLegal r) (hv : r.valid = true) :
    (slotWord r).toNat = 16 + r.digit.toNat := by
  have := h.pending hv
  simp [slotWord, hv]
  omega

theorem slotWord_legal {r : SlotRegs} (h : SlotLegal r) :
    slotWord r = 0b01111#5 ∨ 16 ≤ (slotWord r).toNat ∧ (slotWord r).toNat ≤ 25 := by
  cases hv : r.valid with
  | false => exact .inl (slotWord_empty h hv)
  | true =>
    have hdigit := h.pending hv
    have hword := slotWord_pending h hv
    exact .inr (by omega)

/-- Settles O45: each register's range is inside what its width holds. -/
theorem registersFitTheirWidths : Obligations.RegistersFitTheirWidths := by
  intro s ⟨hadm, hslot, hsyn⟩
  have hphw : s.cfg.tableLen ≤ 2 ^ s.cfg.phw := (Config.phw_le_iff hadm).mp le_rfl
  have haw : s.cfg.ampMax < 2 ^ s.cfg.aw := (Config.aw_le_iff hadm).mp le_rfl
  exact ⟨hsyn.highPhase.trans_le hphw, hsyn.lowPhase.trans_le hphw, hsyn.highStep.trans_le hphw,
    hsyn.lowStep.trans_le hphw, hsyn.level.trans_lt haw, remainingCyclesWord_toInt hsyn,
    remainingCyclesWord_idle hsyn, slotWord_legal hslot⟩

end Machine

end Sys2Proof
end

section
/-! SUPPORT. What every operation keeps, from what its parts keep: a relation between the state before
and the state after that composes holds of every operation but the reset once the updates of
`Machine/Ops.lean` and the parts of a sample tick have it. From it the ranges of the registers
(10_state.md R45), and that `level` is written with its strobe only (R38). -/

namespace Sys2Proof.Machine

variable {s t u : State} {i : Instr}

/-- A relation between a state and a later one that composes and holds across every update an event is
made of. -/
structure KeptByParts (T : State → State → Prop) : Prop where
  refl : ∀ s, T s s
  trans : ∀ {s t u}, T s t → T t u → T s u
  sampleLines : ∀ m p s, T s (sampleLines m p s)
  setPulseCount : ∀ n s, T s (setPulseCount n s)
  slotPush : ∀ d s, T s (slotPush d s)
  slotTake : ∀ s, T s (slotTake s)
  tickPart : ∀ a {s t}, tickPart a s = .next t → T s t

namespace KeptByParts

variable {T : State → State → Prop} (hT : KeptByParts T)
include hT

theorem pollPart (a : PollPart) (h : pollPart a s = .next t) : T s t := by
  cases a with
  | restIdle => obtain ⟨-, rfl⟩ := restIdle_next_iff.mp h; exact hT.refl s
  | restEmit =>
    obtain ⟨d, -, rfl⟩ := restEmit_next_iff.mp h
    exact hT.trans (hT.slotPush d s) (hT.setPulseCount _ _)
  | restDiscard => obtain ⟨-, rfl⟩ := restDiscard_next_iff.mp h; exact hT.setPulseCount _ s
  | moveCount => obtain rfl := moveCount_next_iff.mp h; exact hT.setPulseCount _ s
  | moveHold => obtain rfl := moveHold_next_iff.mp h; exact hT.refl s

theorem poll {m p : Line} (h : poll m p s = .next t) : T s t :=
  hT.trans (hT.sampleLines m p s) (hT.pollPart _ h)

theorem sampleTick (h : sampleTick s = .next t) : T s t := hT.tickPart _ h

theorem bothTicks {m p : Line} (h : bothTicks m p s = .next t) : T s t := by
  unfold Machine.bothTicks at h
  split at h <;> obtain ⟨u, hfirst, hsecond⟩ := serially_next_iff.mp h
  · exact hT.trans (hT.sampleTick hfirst) (hT.poll hsecond)
  · exact hT.trans (hT.poll hfirst) (hT.sampleTick hsecond)

theorem slotPushTake (d : Digit) (s : State) : T s (slotPushTake d s) := by
  unfold Machine.slotPushTake
  split
  · exact hT.trans (hT.slotTake s) (hT.slotPush d _)
  · exact hT.trans (hT.slotPush d s) (hT.slotTake _)

theorem event (hi : i ≠ .cycReset) (h : event i s = .next t) : T s t := by
  cases i with
  | cycReset => exact absurd rfl hi
  | cycNop | slotHold | slotHasPending => cases h; exact hT.refl s
  | cycDec | decTick => exact hT.poll h
  | cycSyn | synTick => exact hT.sampleTick h
  | cycBoth => exact hT.bothTicks h
  | decSample m p => cases h; exact hT.sampleLines m p s
  | decRestIdle => exact hT.pollPart .restIdle h
  | decRestEmit => exact hT.pollPart .restEmit h
  | decRestDiscard => exact hT.pollPart .restDiscard h
  | decMoveCount => exact hT.pollPart .moveCount h
  | decMoveHold => exact hT.pollPart .moveHold h
  | synFinish => exact hT.tickPart .finish h
  | synGen => exact hT.tickPart .gen h
  | synStart => exact hT.tickPart .start h
  | synNop => exact hT.tickPart .nop h
  | slotPush d => cases h; exact hT.slotPush d s
  | slotTake => cases h; exact hT.slotTake s
  | slotPushTake d => cases h; exact hT.slotPushTake d s

/-- An operation but the reset answers a next state related to the opened cycle. -/
theorem exec (hi : i ≠ .cycReset) (h : exec i s = .next t) : T (openCycle s) t :=
  hT.event hi (exec_next_iff_event.mp h).2

end KeptByParts

/-! ### The ranges of the registers (10_state.md R45 (a) to (f)) -/

variable {c : Config} {r : SlotRegs}

theorem silenceLevel_le_ampMax (h : c.admitted = true) : c.silenceLevel ≤ c.ampMax := by
  simp [Config.admitted, Config.silenceOk] at h; omega

theorem mean_le {a b k : Nat} (ha : a ≤ k) (hb : b ≤ k) : mean a b ≤ k := by
  unfold mean; omega

/-- One conditional subtraction brings the sum of two numbers below the table length below it. -/
theorem advance_lt {ph st : Nat} (hph : ph < c.tableLen) (hst : st < c.tableLen) :
    advance c ph st < c.tableLen := by
  unfold advance; split <;> omega

/-- Every amplitude an admitted configuration's table answers is in range. -/
theorem romSine_le_ampMax {k a : Nat} (h : c.admitted = true) (ha : romSine c k = some a) :
    a ≤ c.ampMax := by
  have hentry : c.sine.getD k 0 = a := by rw [List.getD_eq_getElem?_getD, ← romSine, ha]; rfl
  exact hentry ▸ sine_le_ampMax c h k

/-- The steps an admitted configuration's tables answer for a decimal digit are below the table
length. -/
theorem stepPair_lt {d : Digit} {hs ls : Nat} (h : c.admitted = true) (hd : d.toNat ≤ 9)
    (hp : stepPair c d = some (hs, ls)) : hs < c.tableLen ∧ ls < c.tableLen := by
  obtain ⟨e, he⟩ := digitFreq_entry c h hd
  obtain ⟨rfl, rfl⟩ : c.phaseStep e.high = hs ∧ c.phaseStep e.low = ls := by
    simpa [stepPair_of_entry c e he] using hp
  exact phaseStep_lt c e h (List.mem_of_getElem? he)

theorem SlotLegal.empty_slot (f : FaultBits) :
    SlotLegal { valid := false, digit := emptyDigit, fault := f } :=
  ⟨fun _ => rfl, nofun⟩

theorem SlotLegal.of_decimal {d : Digit} (hd : d.toNat ≤ 9) (f : FaultBits) :
    SlotLegal { valid := true, digit := d, fault := f } :=
  ⟨nofun, fun _ => hd⟩

theorem SlotLegal.slotPush (h : SlotLegal s.slot) (d : Digit) :
    SlotLegal (slotPush d s).slot := by
  rcases Nat.lt_or_ge 9 d.toNat with hd | hd
  · rw [slotPush_reserved hd]; exact ⟨h.empty, h.pending⟩
  · rw [slotPush_decimal hd]; exact .of_decimal hd _

theorem SynInRange.afterReset (h : c.admitted = true) : SynInRange c (SynRegs.afterReset c) := by
  have hlen := tableLen_ge_two c h
  constructor <;> simp only [SynRegs.afterReset]
  case level => exact silenceLevel_le_ampMax h
  all_goals omega

theorem Ranges.resetRegisters (h : s.cfg.admitted = true) : Ranges (resetRegisters s) :=
  ⟨h, .empty_slot _, .afterReset h⟩

theorem Ranges.slotPush (h : Ranges s) (d : Digit) : Ranges (slotPush d s) := by
  refine ⟨?_, h.slot.slotPush d, ?_⟩
  · simpa using h.admitted
  · simpa using h.syn

theorem Ranges.slotTake (h : Ranges s) : Ranges (slotTake s) := by
  refine ⟨?_, .empty_slot _, ?_⟩
  · simpa using h.admitted
  · simpa using h.syn

theorem Ranges.finishTone (h : Ranges s) (hn : finishTone s = .next t) : Ranges t := by
  obtain ⟨-, rfl⟩ := finishTone_next_iff.mp hn
  exact ⟨h.admitted, h.slot, { h.syn with
    cyclesLow := le_rfl
    cyclesHigh := by simp only; omega
    level := silenceLevel_le_ampMax h.admitted }⟩

theorem Ranges.generate (h : Ranges s) (hn : generate s = .next t) : Ranges t := by
  obtain ⟨hpos, a, b, ha, hb, rfl⟩ := generate_next_iff.mp hn
  have hhigh := h.syn.cyclesHigh
  exact ⟨h.admitted, h.slot, {
    cyclesLow := by simp only; omega
    cyclesHigh := by simp only; omega
    highPhase := advance_lt h.syn.highPhase h.syn.highStep
    lowPhase := advance_lt h.syn.lowPhase h.syn.lowStep
    highStep := h.syn.highStep
    lowStep := h.syn.lowStep
    level := mean_le (romSine_le_ampMax h.admitted ha) (romSine_le_ampMax h.admitted hb) }⟩

theorem Ranges.startTone (h : Ranges s) (hn : startTone s = .next t) : Ranges t := by
  obtain ⟨-, hv, hs, ls, hp, rfl⟩ := startTone_next_iff.mp hn
  obtain ⟨hhs, hls⟩ := stepPair_lt h.admitted (h.slot.pending hv) hp
  exact ⟨h.admitted, .empty_slot _, {
    cyclesLow := by simp only; omega
    cyclesHigh := le_rfl
    highPhase := Nat.zero_lt_of_lt hhs
    lowPhase := Nat.zero_lt_of_lt hls
    highStep := hhs
    lowStep := hls
    level := h.syn.level }⟩

theorem Ranges.tickPart (a : TickPart) (h : Ranges s) (hn : tickPart a s = .next t) : Ranges t := by
  cases a with
  | finish => exact h.finishTone hn
  | gen => exact h.generate hn
  | start => exact h.startTone hn
  | nop => obtain ⟨-, -, rfl⟩ := idleTick_next_iff.mp hn; exact h

theorem ranges_keptByParts : KeptByParts fun s t => Ranges s → Ranges t where
  refl _ := id
  trans hst htu := htu ∘ hst
  sampleLines _ _ _ h := ⟨h.admitted, h.slot, h.syn⟩
  setPulseCount _ _ h := ⟨h.admitted, h.slot, h.syn⟩
  slotPush d _ h := h.slotPush d
  slotTake _ h := h.slotTake
  tickPart a _ _ hn h := h.tickPart a hn

/-- Every operation keeps the ranges; the reset brings them about. -/
theorem Ranges.exec (h : Ranges s) (hn : exec i s = .next t) : Ranges t := by
  by_cases hi : i = .cycReset
  · subst hi
    obtain ⟨hadm, rfl⟩ := exec_cycReset_next_iff.mp hn
    exact .resetRegisters hadm
  · exact ranges_keptByParts.exec hi hn ⟨h.admitted, h.slot, h.syn⟩

/-- Settles O57: an event keeps the ranges since each of its updates does. -/
theorem everyOperationKeepsTheRanges : Obligations.EveryOperationKeepsTheRanges :=
  fun _ _ _ h hn => h.exec hn

/-! ### The operation of a command word (30_encoding.md R94) -/

@[simp] theorem afterPoll_out (m p : Line) (s : State) : (afterPoll m p s).out = s.out := rfl
@[simp] theorem afterPoll_syn (m p : Line) (s : State) : (afterPoll m p s).syn = s.syn := rfl

/-- The operation of a command word with the bits that select it. -/
theorem decodeCommand_bits (w : CommandWord) :
    (rstBit w = true ∧ decodeCommand w = .cycReset) ∨
    (rstBit w = false ∧ tickLoBit w = false ∧ tickHiBit w = false ∧ decodeCommand w = .cycNop) ∨
    (rstBit w = false ∧ tickLoBit w = true ∧ tickHiBit w = false ∧
      decodeCommand w = .cycDec (movingBit w) (pulseBit w)) ∨
    (rstBit w = false ∧ tickLoBit w = false ∧ tickHiBit w = true ∧ decodeCommand w = .cycSyn) ∨
    (rstBit w = false ∧ tickLoBit w = true ∧ tickHiBit w = true ∧
      decodeCommand w = .cycBoth (movingBit w) (pulseBit w)) := by
  unfold decodeCommand; split <;> simp_all

theorem decodeCommand_eq_cycReset_iff {w : CommandWord} :
    decodeCommand w = .cycReset ↔ rstBit w = true := by
  unfold decodeCommand; split <;> simp_all

/-! ### The strobe of `level` (10_state.md R38) -/

/-- Where the strobe of the cycle is still 0, `level` has not been written in it. -/
def LevelKeptWithoutStrobe (s t : State) : Prop :=
  t.out.levelWr = false → s.out.levelWr = false ∧ t.syn.level = s.syn.level

theorem levelKeptWithoutStrobe_keptByParts : KeptByParts LevelKeptWithoutStrobe where
  refl _ h := ⟨h, rfl⟩
  trans hst htu h := by
    obtain ⟨ht, hlevel⟩ := htu h
    exact ⟨(hst ht).1, hlevel.trans (hst ht).2⟩
  sampleLines _ _ _ h := ⟨h, rfl⟩
  setPulseCount _ _ h := ⟨h, rfl⟩
  slotPush _ _ h := ⟨by simpa using h, by simp⟩
  slotTake _ h := ⟨by simpa using h, by simp⟩
  tickPart a s t hn := by
    cases a with
    | finish => obtain ⟨-, rfl⟩ := finishTone_next_iff.mp hn; exact nofun
    | gen => obtain ⟨-, _, _, _, _, rfl⟩ := generate_next_iff.mp hn; exact nofun
    | start => obtain ⟨-, -, _, _, _, rfl⟩ := startTone_next_iff.mp hn; exact fun h => ⟨h, rfl⟩
    | nop => obtain ⟨-, -, rfl⟩ := idleTick_next_iff.mp hn; exact fun h => ⟨h, rfl⟩

/-- A sample tick drives the strobe exactly where a tone is in progress or finishing. -/
theorem sampleTick_levelWr (h : sampleTick s = .next t) :
    t.out.levelWr = true ↔ s.out.levelWr = true ∨ 0 ≤ s.syn.remainingCycles := by
  rcases sampleTick_cases h with hp | hp | hp | hp
  · obtain ⟨h0, rfl⟩ := finishTone_next_iff.mp hp; simp [h0]
  · obtain ⟨hpos, _, _, _, _, rfl⟩ := generate_next_iff.mp hp; simp [hpos.le]
  · obtain ⟨hneg, -, _, _, _, rfl⟩ := startTone_next_iff.mp hp; simp [hneg]
  · obtain ⟨hneg, -, rfl⟩ := idleTick_next_iff.mp hp; simp [hneg]

theorem exec_command_levelWr {w : CommandWord} (h : exec (decodeCommand w) s = .next t) :
    t.out.levelWr = true ↔
      rstBit w = false ∧ tickHiBit w = true ∧ 0 ≤ s.syn.remainingCycles := by
  rcases decodeCommand_bits w with ⟨hr, hw⟩ | ⟨hr, -, hhi, hw⟩ | ⟨hr, -, hhi, hw⟩ |
    ⟨hr, -, hhi, hw⟩ | ⟨hr, -, hhi, hw⟩ <;> rw [hw] at h
  · obtain ⟨-, rfl⟩ := exec_cycReset_next_iff.mp h; simp [hr]
  · obtain ⟨-, rfl⟩ := exec_cycNop_next_iff.mp h; simp [hhi]
  · obtain ⟨-, rfl⟩ := exec_cycDec_next_iff.mp h; simp [hhi]
  · simp [hr, hhi, sampleTick_levelWr (exec_cycSyn_next_iff.mp h).2]
  · obtain ⟨-, ⟨-, u, hu, rfl⟩ | ⟨-, ht⟩⟩ := exec_cycBoth_next_iff.mp h
    · simp [hr, hhi, sampleTick_levelWr hu]
    · simp [hr, hhi, sampleTick_levelWr ht]

/-- Settles O52: no update writes `level` without the strobe, and the strobe is the sample tick's. -/
theorem levelChangesOnlyWithItsStrobeOrReset : Obligations.LevelChangesOnlyWithItsStrobeOrReset := by
  exact ⟨fun _ _ _ hi h hwr => (levelKeptWithoutStrobe_keptByParts.exec hi h hwr).2,
    fun _ _ _ h => exec_command_levelWr h⟩

end Sys2Proof.Machine
end

section
/-! SUPPORT. What the agents own (10_state.md R47), and what nothing reads: the fault bits (R32) and the
two recorded samples `movingSignal` and `previousPulseSignal` (R23, R25). -/

namespace Sys2Proof.Machine

variable {s t u : State} {i : Instr}

/-- What a step of the decoder may write beside its own registers: a decimal digit in the slot. -/
def DecoderWrites (s t : State) : Prop :=
  t.syn = s.syn ∧ (t.slot = s.slot ∨ ∃ d : Digit, d.toNat ≤ 9 ∧
    t.slot = { s.slot with valid := true, digit := d })

/-- What a step of the synthesizer may write beside its own registers: it may empty a full slot. -/
def SynthesizerWrites (s t : State) : Prop :=
  t.dec = s.dec ∧ (t.slot = s.slot ∨ s.slot.valid = true ∧
    t.slot = { s.slot with valid := false, digit := 15#4 })

theorem pollPart_decoderWrites (a : PollPart) (h : pollPart a s = .next t) : DecoderWrites s t := by
  cases a with
  | restIdle => obtain ⟨-, rfl⟩ := restIdle_next_iff.mp h; exact ⟨rfl, .inl rfl⟩
  | restEmit =>
    obtain ⟨d, hd, rfl⟩ := restEmit_next_iff.mp h
    have hdec := romPc2Digit_decimal _ d hd
    exact ⟨by simp, .inr ⟨d, hdec, slotPush_decimal hdec⟩⟩
  | restDiscard => obtain ⟨-, rfl⟩ := restDiscard_next_iff.mp h; exact ⟨rfl, .inl rfl⟩
  | moveCount => obtain rfl := moveCount_next_iff.mp h; exact ⟨rfl, .inl rfl⟩
  | moveHold => obtain rfl := moveHold_next_iff.mp h; exact ⟨rfl, .inl rfl⟩

theorem sampleTick_synthesizerWrites (h : sampleTick s = .next t) : SynthesizerWrites s t := by
  rcases sampleTick_cases h with hp | hp | hp | hp
  · obtain ⟨-, rfl⟩ := finishTone_next_iff.mp hp; exact ⟨rfl, .inl rfl⟩
  · obtain ⟨-, _, _, _, _, rfl⟩ := generate_next_iff.mp hp; exact ⟨rfl, .inl rfl⟩
  · obtain ⟨-, hv, _, _, _, rfl⟩ := startTone_next_iff.mp hp; exact ⟨rfl, .inr ⟨hv, rfl⟩⟩
  · obtain ⟨-, -, rfl⟩ := idleTick_next_iff.mp hp; exact ⟨rfl, .inl rfl⟩

theorem slotPushTake_dec (d : Digit) (s : State) : (slotPushTake d s).dec = s.dec := by
  unfold slotPushTake; split <;> simp

theorem slotPushTake_syn (d : Digit) (s : State) : (slotPushTake d s).syn = s.syn := by
  unfold slotPushTake; split <;> simp

theorem event_decoderWrites (hf : i.family = .dec) (h : event i s = .next t) :
    DecoderWrites s t := by
  cases i with
  | decTick m p => exact pollPart_decoderWrites (selectPoll s.dec m p) (s := sampleLines m p s) h
  | decSample => cases h; exact ⟨rfl, .inl rfl⟩
  | decRestIdle => exact pollPart_decoderWrites .restIdle h
  | decRestEmit => exact pollPart_decoderWrites .restEmit h
  | decRestDiscard => exact pollPart_decoderWrites .restDiscard h
  | decMoveCount => exact pollPart_decoderWrites .moveCount h
  | decMoveHold => exact pollPart_decoderWrites .moveHold h
  | _ => cases hf

theorem event_synthesizerWrites (hf : i.family = .syn) (h : event i s = .next t) :
    SynthesizerWrites s t := by
  cases i with
  | synTick => exact sampleTick_synthesizerWrites h
  | synFinish => exact sampleTick_synthesizerWrites (sampleTick_of_part .finish h)
  | synGen => exact sampleTick_synthesizerWrites (sampleTick_of_part .gen h)
  | synStart => exact sampleTick_synthesizerWrites (sampleTick_of_part .start h)
  | synNop => exact sampleTick_synthesizerWrites (sampleTick_of_part .nop h)
  | _ => cases hf

theorem event_slot_frame (hf : i.family = .slot) (h : event i s = .next t) :
    t.dec = s.dec ∧ t.syn = s.syn := by
  cases i with
  | slotHold | slotHasPending => cases h; exact ⟨rfl, rfl⟩
  | slotPush d => cases h; exact ⟨slotPush_dec s d, slotPush_syn s d⟩
  | slotTake => cases h; exact ⟨slotTake_dec s, slotTake_syn s⟩
  | slotPushTake d => cases h; exact ⟨slotPushTake_dec d s, slotPushTake_syn d s⟩
  | _ => cases hf

/-- Settles O50: opening the cycle writes no register, and the event then writes its agent's own. -/
theorem eachAgentWritesOnlyItsOwnRegisters : Obligations.EachAgentWritesOnlyItsOwnRegisters := by
  intro i s t h
  have hevent := (exec_next_iff_event.mp h).2
  exact ⟨fun hf => event_decoderWrites (s := openCycle s) hf hevent,
    fun hf => event_synthesizerWrites (s := openCycle s) hf hevent,
    fun hf => event_slot_frame (s := openCycle s) hf hevent⟩

/-! ### Registers that nothing reads -/

/-- The state with other values in what nothing reads: the fault bits `f`, the port `g` that shows them,
and the samples `a` of `moving_n` and `b` of the poll before the last. -/
def withUnread (f g : FaultBits) (a b : Line) (s : State) : State :=
  { s with slot := { s.slot with fault := f },
           dec := { s.dec with movingSignal := a, previousPulseSignal := b },
           out := { s.out with fault := g } }

/-- Two states agree but for what nothing reads. `g` is what the port `fault` of the second shows; under
`F` the fault bits and that port agree too, under `R` the two recorded samples do. -/
def AgreeOnRead (g : FaultBits) (F R : Prop) (s s' : State) : Prop :=
  ∃ f a b, s' = withUnread f g a b s ∧ (F → f = s.slot.fault ∧ g = s.out.fault) ∧
    (R → a = s.dec.movingSignal ∧ b = s.dec.previousPulseSignal)

namespace AgreeOnRead

variable {s' : State} {g : FaultBits} {F R : Prop} (h : AgreeOnRead g F R s s')
include h

theorem resetRegisters : AgreeOnRead g F R (resetRegisters s) (resetRegisters s') := by
  obtain ⟨f, a, b, rfl, hF, -⟩ := h
  exact ⟨_, _, _, rfl, fun hf => ⟨rfl, (hF hf).2⟩, fun _ => ⟨rfl, rfl⟩⟩

theorem sampleLines (m p : Line) :
    AgreeOnRead g F R (sampleLines m p s) (sampleLines m p s') := by
  obtain ⟨f, a, b, rfl, hF, -⟩ := h
  exact ⟨f, _, _, rfl, hF, fun _ => ⟨rfl, rfl⟩⟩

theorem setPulseCount (n : BitVec 4) :
    AgreeOnRead g F R (setPulseCount n s) (setPulseCount n s') := by
  obtain ⟨f, a, b, rfl, hF, hR⟩ := h
  exact ⟨f, a, b, rfl, hF, hR⟩

theorem raiseFault (k : FaultCode) : AgreeOnRead g F R (raiseFault k s) (raiseFault k s') := by
  obtain ⟨f, a, b, rfl, hF, hR⟩ := h
  exact ⟨f ||| k.bit, a, b, rfl, fun hf => ⟨by rw [(hF hf).1]; rfl, (hF hf).2⟩, hR⟩

theorem slotPush (d : Digit) : AgreeOnRead g F R (slotPush d s) (slotPush d s') := by
  unfold Machine.slotPush
  split
  · obtain ⟨f, a, b, rfl, hF, hR⟩ := h
    exact ⟨f, a, b, rfl, hF, hR⟩
  · exact h.raiseFault .badDigit

theorem faultIfEmpty : AgreeOnRead g F R (faultIfEmpty s) (faultIfEmpty s') := by
  have hvalid : s'.slot.valid = s.slot.valid := by obtain ⟨f, a, b, rfl, -, -⟩ := h; rfl
  unfold Machine.faultIfEmpty
  rw [hvalid]
  split
  · exact h
  · exact h.raiseFault .emptyTake

theorem slotTake : AgreeOnRead g F R (slotTake s) (slotTake s') := by
  have hdigit : s'.takeDigit = s.takeDigit := by obtain ⟨f, a, b, rfl, -, -⟩ := h; rfl
  unfold Machine.slotTake
  rw [hdigit]
  obtain ⟨f, a, b, heq, hF, hR⟩ := h.faultIfEmpty
  rw [heq]
  exact ⟨f, a, b, rfl, hF, hR⟩

theorem cfg : s'.cfg = s.cfg := by
  obtain ⟨f, a, b, rfl, -, -⟩ := h; rfl

theorem slotPushTake (d : Digit) :
    AgreeOnRead g F R (slotPushTake d s) (slotPushTake d s') := by
  unfold Machine.slotPushTake
  rw [h.cfg]
  split
  · exact h.slotTake.slotPush d
  · exact (h.slotPush d).slotTake

theorem pollPart (a : PollPart) (hn : pollPart a s = .next t) :
    ∃ t', pollPart a s' = .next t' ∧ AgreeOnRead g F R t t' := by
  have hcount : s'.dec.pulseCount = s.dec.pulseCount := by obtain ⟨f, a, b, rfl, -, -⟩ := h; rfl
  cases a with
  | restIdle =>
    obtain ⟨h0, rfl⟩ := restIdle_next_iff.mp hn
    exact ⟨s', restIdle_next_iff.mpr ⟨hcount ▸ h0, rfl⟩, h⟩
  | restEmit =>
    obtain ⟨d, hd, rfl⟩ := restEmit_next_iff.mp hn
    exact ⟨_, restEmit_next_iff.mpr ⟨d, hcount ▸ hd, rfl⟩, (h.slotPush d).setPulseCount _⟩
  | restDiscard =>
    obtain ⟨h11, rfl⟩ := restDiscard_next_iff.mp hn
    exact ⟨_, restDiscard_next_iff.mpr ⟨hcount ▸ h11, rfl⟩, h.setPulseCount _⟩
  | moveCount =>
    obtain rfl := moveCount_next_iff.mp hn
    exact ⟨_, moveCount_next_iff.mpr rfl, hcount ▸ h.setPulseCount _⟩
  | moveHold =>
    obtain rfl := moveHold_next_iff.mp hn
    exact ⟨s', moveHold_next_iff.mpr rfl, h⟩

theorem tickPart (a : TickPart) (hn : tickPart a s = .next t) :
    ∃ t', tickPart a s' = .next t' ∧ AgreeOnRead g F R t t' := by
  obtain ⟨f, x, y, rfl, hF, hR⟩ := h
  cases a with
  | finish =>
    obtain ⟨h0, rfl⟩ := finishTone_next_iff.mp hn
    exact ⟨_, finishTone_next_iff.mpr ⟨h0, rfl⟩, f, x, y, rfl, hF, hR⟩
  | gen =>
    obtain ⟨hpos, k, l, hk, hl, rfl⟩ := generate_next_iff.mp hn
    exact ⟨_, generate_next_iff.mpr ⟨hpos, k, l, hk, hl, rfl⟩, f, x, y, rfl, hF, hR⟩
  | start =>
    obtain ⟨hneg, hv, k, l, hp, rfl⟩ := startTone_next_iff.mp hn
    exact ⟨_, startTone_next_iff.mpr ⟨hneg, hv, k, l, hp, rfl⟩, f, x, y, rfl, hF, hR⟩
  | nop =>
    obtain ⟨hneg, hv, rfl⟩ := idleTick_next_iff.mp hn
    exact ⟨_, idleTick_next_iff.mpr ⟨hneg, hv, rfl⟩, f, x, y, rfl, hF, hR⟩

theorem poll {m p : Line} (hn : poll m p s = .next t) :
    ∃ t', poll m p s' = .next t' ∧ AgreeOnRead g F R t t' := by
  have hselect : selectPoll s'.dec m p = selectPoll s.dec m p := by
    obtain ⟨f, a, b, rfl, -, -⟩ := h; rfl
  unfold Machine.poll at hn ⊢
  rw [hselect]
  exact (h.sampleLines m p).pollPart _ hn

theorem sampleTick (hn : sampleTick s = .next t) :
    ∃ t', sampleTick s' = .next t' ∧ AgreeOnRead g F R t t' := by
  obtain ⟨t', hn', ht⟩ := h.tickPart _ hn
  exact ⟨t', sampleTick_of_part _ hn', ht⟩

theorem bothTicks {m p : Line} (hn : bothTicks m p s = .next t) :
    ∃ t', bothTicks m p s' = .next t' ∧ AgreeOnRead g F R t t' := by
  unfold Machine.bothTicks at hn ⊢
  rw [h.cfg]
  split at hn <;> obtain ⟨u, hfirst, hsecond⟩ := serially_next_iff.mp hn
  · obtain ⟨u', hfirst', hu⟩ := h.sampleTick hfirst
    obtain ⟨t', hsecond', ht⟩ := hu.poll hsecond
    exact ⟨t', serially_next_iff.mpr ⟨u', hfirst', hsecond'⟩, ht⟩
  · obtain ⟨u', hfirst', hu⟩ := h.poll hfirst
    obtain ⟨t', hsecond', ht⟩ := hu.sampleTick hsecond
    exact ⟨t', serially_next_iff.mpr ⟨u', hfirst', hsecond'⟩, ht⟩

/-- An event does the same from states that agree on what is read. -/
theorem event (hn : event i s = .next t) :
    ∃ t', event i s' = .next t' ∧ AgreeOnRead g F R t t' := by
  cases i with
  | cycReset => cases hn; exact ⟨_, rfl, h.resetRegisters⟩
  | cycNop | slotHold | slotHasPending => cases hn; exact ⟨_, rfl, h⟩
  | cycDec | decTick => exact h.poll hn
  | cycSyn | synTick => exact h.sampleTick hn
  | cycBoth => exact h.bothTicks hn
  | decSample m p => cases hn; exact ⟨_, rfl, h.sampleLines m p⟩
  | decRestIdle => exact h.pollPart .restIdle hn
  | decRestEmit => exact h.pollPart .restEmit hn
  | decRestDiscard => exact h.pollPart .restDiscard hn
  | decMoveCount => exact h.pollPart .moveCount hn
  | decMoveHold => exact h.pollPart .moveHold hn
  | synFinish => exact h.tickPart .finish hn
  | synGen => exact h.tickPart .gen hn
  | synStart => exact h.tickPart .start hn
  | synNop => exact h.tickPart .nop hn
  | slotPush d => cases hn; exact ⟨_, rfl, h.slotPush d⟩
  | slotTake => cases hn; exact ⟨_, rfl, h.slotTake⟩
  | slotPushTake d => cases hn; exact ⟨_, rfl, h.slotPushTake d⟩

end AgreeOnRead

/-- An operation answers the same state, but for what nothing reads, from a state with other values
there. -/
theorem exec_agreeOnRead {s' : State} {g : FaultBits} {F R : Prop}
    (h : AgreeOnRead g F R (openCycle s) (openCycle s')) (hn : exec i s = .next t) :
    ∃ t', exec i s' = .next t' ∧ AgreeOnRead g F R t t' := by
  obtain ⟨hadm, hevent⟩ := exec_next_iff_event.mp hn
  obtain ⟨t', hevent', ht⟩ := h.event hevent
  have hcfg : s'.cfg = s.cfg := h.cfg
  exact ⟨t', exec_next_iff_event.mpr ⟨hcfg ▸ hadm, hevent'⟩, ht⟩

/-- Settles O48: an operation run from other fault bits agrees on all else, the recorded samples among
it. -/
theorem faultBitsInfluenceNothing : Obligations.FaultBitsInfluenceNothing := by
  intro i s t f hn
  have hopen : AgreeOnRead f False True (openCycle s)
      (openCycle { s with slot := { s.slot with fault := f } }) :=
    ⟨f, _, _, rfl, False.elim, fun _ => ⟨rfl, rfl⟩⟩
  obtain ⟨u, hu, _, a, b, rfl, -, hsamples⟩ := exec_agreeOnRead hopen hn
  obtain ⟨rfl, rfl⟩ := hsamples trivial
  exact ⟨_, hu, rfl, rfl, rfl, rfl, rfl⟩

/-- Settles O49: an operation run from other recorded samples agrees on all else, the fault bits among
it. -/
theorem recordRegistersInfluenceNothing : Obligations.RecordRegistersInfluenceNothing := by
  intro i s t a b hn
  have hopen : AgreeOnRead s.slot.fault True False (openCycle s) (openCycle
      { s with dec := { s.dec with movingSignal := a, previousPulseSignal := b } }) :=
    ⟨s.slot.fault, a, b, rfl, fun _ => ⟨rfl, rfl⟩, False.elim⟩
  obtain ⟨u, hu, f, _, _, rfl, hfault, -⟩ := exec_agreeOnRead hopen hn
  obtain ⟨rfl, hport⟩ := hfault trivial
  rw [hport] at hu
  exact ⟨_, hu, rfl, rfl, rfl, rfl, rfl⟩

end Sys2Proof.Machine
end

section
/-! SUPPORT. The invariant of the assembled block (10_state.md R45) at reset, along a step and along any
run of command words from reset (43_core_cycle.md R220, R226; 70_reset_and_hazards.md R272). -/

namespace Sys2Proof.Machine

variable {s t u : State} {w : CommandWord} {ws : List CommandWord}

/-! ### Reset -/

/-- Settles O7: the reset values are the definition's own. -/
theorem resetStateHoldsTheStatedValues : Obligations.ResetStateHoldsTheStatedValues :=
  ⟨rfl, fun _ => ⟨rfl, rfl, rfl, rfl, rfl, rfl⟩⟩

theorem config_ref_admitted : Config.ref.admitted = true := by decide +kernel

theorem Inv.resetWith {c : Config} (h : c.admitted = true) : Inv (State.resetWith c) :=
  ⟨⟨h, .empty_slot _, .afterReset h⟩, rfl, rfl, nofun⟩

/-- Settles O56: the reset values are in range under every admitted configuration, and `REF` is one. -/
theorem resetMeetsTheInvariant : Obligations.ResetMeetsTheInvariant :=
  ⟨.resetWith config_ref_admitted, fun _ => .resetWith⟩

/-! ### One cycle -/

@[simp] theorem afterPoll_fault (m p : Line) (s : State) :
    (afterPoll m p s).slot.fault = s.slot.fault := by
  unfold afterPoll slotAfterPoll; split <;> rfl

theorem sampleTick_fault (h : sampleTick s = .next t) : t.slot.fault = s.slot.fault := by
  obtain ⟨-, -, -, -, -, -, -, hfault⟩ := sampleTick_frame h
  exact hfault

/-- A cycle of the assembled block raises no fault; a reset clears the bits (60_exceptions.md R248). -/
theorem exec_command_fault (h : exec (decodeCommand w) s = .next t) :
    t.slot.fault = if rstBit w then 0#2 else s.slot.fault := by
  rcases decodeCommand_bits w with ⟨hr, hw⟩ | ⟨hr, -, -, hw⟩ | ⟨hr, -, -, hw⟩ | ⟨hr, -, -, hw⟩ |
    ⟨hr, -, -, hw⟩ <;> rw [hw] at h
  · obtain ⟨-, rfl⟩ := exec_cycReset_next_iff.mp h; simp [hr, SlotRegs.afterReset]
  · obtain ⟨-, rfl⟩ := exec_cycNop_next_iff.mp h; simp [hr]
  · obtain ⟨-, rfl⟩ := exec_cycDec_next_iff.mp h; simp [hr]
  · simp [hr, sampleTick_fault (exec_cycSyn_next_iff.mp h).2]
  · obtain ⟨-, ⟨-, u, hu, rfl⟩ | ⟨-, ht⟩⟩ := exec_cycBoth_next_iff.mp h
    · simp [hr, sampleTick_fault hu]
    · simp [hr, sampleTick_fault ht]

/-- A poll reads the decoder's registers alone for what it writes in them. -/
theorem afterPoll_dec_congr {m p : Line} (h : u.dec = s.dec) :
    (afterPoll m p u).dec = (afterPoll m p s).dec := by
  simp only [afterPoll, countAfterPoll, h]

/-- The decoder's registers after a cycle: those of a poll exactly where the word has one. -/
theorem exec_command_dec (h : exec (decodeCommand w) s = .next t) :
    t.dec = if rstBit w then DecRegs.afterReset
      else if tickLoBit w then (afterPoll (movingBit w) (pulseBit w) s).dec else s.dec := by
  rcases decodeCommand_bits w with ⟨hr, hw⟩ | ⟨hr, hlo, -, hw⟩ | ⟨hr, hlo, -, hw⟩ |
    ⟨hr, hlo, -, hw⟩ | ⟨hr, hlo, -, hw⟩ <;> rw [hw] at h
  · obtain ⟨-, rfl⟩ := exec_cycReset_next_iff.mp h; simp [hr]
  · obtain ⟨-, rfl⟩ := exec_cycNop_next_iff.mp h; simp [hr, hlo]
  · obtain ⟨-, rfl⟩ := exec_cycDec_next_iff.mp h
    simp [hr, hlo, afterPoll_dec_congr (openCycle_dec s)]
  · obtain ⟨hdec, -⟩ := sampleTick_frame (exec_cycSyn_next_iff.mp h).2
    simp [hr, hlo, hdec]
  · obtain ⟨-, ⟨-, u, hu, rfl⟩ | ⟨-, ht⟩⟩ := exec_cycBoth_next_iff.mp h
    · obtain ⟨hdec, -⟩ := sampleTick_frame hu
      simp [hr, hlo, afterPoll_dec_congr hdec, afterPoll_dec_congr (openCycle_dec s)]
    · obtain ⟨hdec, -⟩ := sampleTick_frame ht
      simp [hr, hlo, hdec, afterPoll_dec_congr (openCycle_dec s)]

theorem Inv.exec_command (h : Inv s) (hn : exec (decodeCommand w) s = .next t) : Inv t := by
  refine ⟨h.ranges.exec hn, ?_, exec_command_begun hn (.inl h.begun), ?_⟩
  · rw [exec_command_fault hn, h.noFault, ite_self]
  · unfold AssembledBlock
    rw [(exec_command_frame hn).2]
    exact h.assembled

/-- Settles O58: a step under the invariant is the cycle of a command word. -/
theorem stepKeepsTheInvariant : Obligations.StepKeepsTheInvariant := by
  intro s t h hn
  cases htrace : s.trace with
  | nil => simp [step, htrace] at hn
  | cons w rest =>
    have hports : ∀ v ∈ w :: rest, ∃ cw, v = InputWord.ports cw := htrace ▸ h.assembled
    obtain ⟨cw, rfl⟩ := hports w (List.mem_cons_self ..)
    have hrest : Inv (withTrace rest s) := ⟨⟨h.ranges.admitted, h.ranges.slot, h.ranges.syn⟩,
      h.noFault, h.begun, fun v hv => hports v (List.mem_cons_of_mem _ hv)⟩
    simp only [step, htrace] at hn
    exact hrest.exec_command (perform_next_iff.mp hn).2

/-- In the ranges no sample tick reads a table outside its index set. -/
theorem Ranges.tablesInRange (h : Ranges s) : TablesInRange s :=
  ⟨fun _ => ⟨h.syn.highPhase, h.syn.lowPhase⟩, fun _ => h.slot.pending⟩

/-- Every command word has its cycle in every state of the ranges. -/
theorem exec_command_completes (h : Ranges s) (w : CommandWord) :
    ∃ t, exec (decodeCommand w) s = .next t := by
  have hadm := h.admitted
  have htables := h.tablesInRange.openCycle
  have htick := sampleTick_completes (s := openCycle s) hadm htables
  rcases decodeCommand_cases w with hw | hw | hw | hw | hw <;> rw [hw]
  · exact ⟨_, exec_cycReset_next_iff.mpr ⟨hadm, rfl⟩⟩
  · exact ⟨_, exec_cycNop_next_iff.mpr ⟨hadm, rfl⟩⟩
  · exact ⟨_, exec_cycDec_next_iff.mpr ⟨hadm, rfl⟩⟩
  · obtain ⟨t, ht⟩ := htick
    exact ⟨t, exec_cycSyn_next_iff.mpr ⟨hadm, ht⟩⟩
  · cases ho : s.cfg.coincidentOrder with
    | synFirst =>
      obtain ⟨u, hu⟩ := htick
      exact ⟨_, exec_cycBoth_next_iff.mpr ⟨hadm, .inl ⟨ho, u, hu, rfl⟩⟩⟩
    | decFirst =>
      obtain ⟨t, ht⟩ := sampleTick_completes
        (s := afterPoll (movingBit w) (pulseBit w) (openCycle s)) hadm htables.afterPoll
      exact ⟨t, exec_cycBoth_next_iff.mpr ⟨hadm, .inr ⟨ho, ht⟩⟩⟩

/-! ### Runs over command words -/

/-- The run over the command words leads from `s` to `t`, cycle by cycle. -/
def Leads : List CommandWord → State → State → Prop
  | [], s, t => s = t
  | w :: ws, s, t => ∃ u, perform (decodeCommand w) s = .next u ∧ Leads ws u t

theorem Leads.runOn (h : Leads ws s t) : runOn (ws.map InputWord.ports) s = .next t := by
  induction ws generalizing s with
  | nil => exact congrArg _ h
  | cons w ws ih =>
    obtain ⟨u, hu, hrest⟩ := h
    exact (runOn_cons hu).trans (ih hrest)

/-- From a state of the invariant every sequence of command words leads somewhere. -/
theorem Inv.leads (h : Inv s) (ws : List CommandWord) : ∃ t, Leads ws s t := by
  induction ws generalizing s with
  | nil => exact ⟨s, rfl⟩
  | cons w ws ih =>
    obtain ⟨u, hu⟩ := exec_command_completes h.ranges w
    obtain ⟨t, ht⟩ := ih (h.exec_command hu)
    exact ⟨t, u, (perform_of_begun h.begun).trans hu, ht⟩

/-- What every cycle keeps, a run keeps. -/
theorem Leads.induction {P : State → Prop} (h : Leads ws s t) (h0 : P s)
    (hstep : ∀ {w s u}, P s → exec (decodeCommand w) s = .next u → P u) : P t := by
  induction ws generalizing s with
  | nil => exact h ▸ h0
  | cons w ws ih =>
    obtain ⟨u, hu, hrest⟩ := h
    exact ih hrest (hstep h0 (perform_next_iff.mp hu).2)

theorem Leads.inv (h : Leads ws s t) (hs : Inv s) : Inv t := h.induction hs Inv.exec_command

theorem Leads.frame (h : Leads ws s t) : t.cfg = s.cfg ∧ t.trace = s.trace := by
  refine h.induction (P := fun u => u.cfg = s.cfg ∧ u.trace = s.trace) ⟨rfl, rfl⟩ ?_
  intro w u v hu hv
  obtain ⟨hcfg, htrace⟩ := exec_command_frame hv
  exact ⟨hcfg.trans hu.1, htrace.trans hu.2⟩

/-! ### The recorded samples of `pulse` (10_state.md R45 (h)) -/

/-- The samples since reset, the latest first, with one more command word. -/
def samplesWith (taken : List Line) (w : CommandWord) : List Line :=
  if rstBit w then [] else if tickLoBit w then pulseBit w :: taken else taken

theorem samplesSinceReset_eq (ws : List CommandWord) :
    samplesSinceReset ws = ws.foldl samplesWith [] := rfl

/-- The two recorded samples are the last two taken, 0 where there is none. -/
def RecordsLastSamples (d : DecRegs) (taken : List Line) : Prop :=
  d.pulseSignal = taken.headD false ∧ d.previousPulseSignal = taken.tail.headD false

theorem RecordsLastSamples.exec_command {taken : List Line} (h : RecordsLastSamples s.dec taken)
    (hn : exec (decodeCommand w) s = .next t) : RecordsLastSamples t.dec (samplesWith taken w) := by
  rw [exec_command_dec hn, samplesWith]
  split
  · exact ⟨rfl, rfl⟩
  · split
    · exact ⟨rfl, h.1⟩
    · exact h

theorem RecordsLastSamples.leads {taken : List Line} (h : RecordsLastSamples s.dec taken)
    (hl : Leads ws s t) : RecordsLastSamples t.dec (ws.foldl samplesWith taken) := by
  induction ws generalizing s taken with
  | nil => exact hl ▸ h
  | cons w ws ih =>
    obtain ⟨u, hu, hrest⟩ := hl
    exact ih (h.exec_command (perform_next_iff.mp hu).2) hrest

/-! ### A reset cycle brings any state to the reset state's registers (R272) -/

/-- The two blocks agree but for the outputs recorded and the words to come. -/
structure SameBlock (s t : State) : Prop where
  registers : SameRegisters s t
  cfg : t.cfg = s.cfg
  begun : t.begun = s.begun

/-- No cycle reads the recorded outputs: opening it writes them all. -/
theorem SameBlock.openCycle_eq (h : SameBlock s t) :
    openCycle t = openCycle (withTrace t.trace s) := by
  obtain ⟨⟨hslot, hdec, hsyn⟩, hcfg, hbegun⟩ := h
  cases s; cases t
  cases hslot; cases hdec; cases hsyn; cases hcfg; cases hbegun
  rfl

theorem sameBlock_withTrace (words : List InputWord) (s : State) :
    SameBlock s (withTrace words s) :=
  ⟨⟨rfl, rfl, rfl⟩, rfl, rfl⟩

/-- A command word's cycle does the same in both blocks. -/
theorem SameBlock.perform_command {s' : State} (h : SameBlock s s')
    (hn : perform (decodeCommand w) s = .next t) :
    ∃ t', perform (decodeCommand w) s' = .next t' ∧ SameBlock t t' := by
  refine ⟨withTrace s'.trace t, ?_, sameBlock_withTrace _ _⟩
  obtain ⟨hmay, hexec⟩ := perform_next_iff.mp hn
  obtain ⟨hadm, hevent⟩ := exec_next_iff_event.mp
    (exec_command_withTrace (words := s'.trace) hexec)
  refine perform_next_iff.mpr ⟨h.begun ▸ hmay, exec_next_iff_event.mpr ⟨h.cfg ▸ hadm, ?_⟩⟩
  rw [h.openCycle_eq]
  exact hevent

theorem SameBlock.leads {s' : State} (h : SameBlock s s') (hl : Leads ws s t) :
    ∃ t', Leads ws s' t' ∧ SameBlock t t' := by
  induction ws generalizing s s' with
  | nil => exact ⟨s', rfl, hl ▸ h⟩
  | cons w ws ih =>
    obtain ⟨u, hu, hrest⟩ := hl
    obtain ⟨u', hu', hsame⟩ := h.perform_command hu
    obtain ⟨t', hrest', ht⟩ := ih hsame hrest
    exact ⟨t', ⟨u', hu', hrest'⟩, ht⟩

/-- A reset cycle leads any state under an admitted configuration to the reset state's block. -/
theorem perform_rst (h : s.cfg.admitted = true) (hw : rstBit w = true) :
    ∃ t, perform (decodeCommand w) s = .next t ∧ SameBlock (State.resetWith s.cfg) t := by
  refine ⟨resetRegisters (openCycle s), ?_, ⟨rfl, rfl, rfl⟩, rfl, rfl⟩
  rw [decodeCommand_eq_cycReset_iff.mpr hw, perform_reset]
  exact exec_cycReset_next_iff.mpr ⟨h, rfl⟩

/-- A run whose first word is a reset cycle is the run of the other words from the reset state. -/
theorem leads_cons_rst (h : s.cfg.admitted = true) (hw : rstBit w = true)
    (hl : Leads ws (State.resetWith s.cfg) t) :
    ∃ u, Leads (w :: ws) s u ∧ SameBlock t u := by
  obtain ⟨r, hr, hsame⟩ := perform_rst h hw
  obtain ⟨u, hu, htu⟩ := hsame.leads hl
  exact ⟨u, ⟨r, hr, hu⟩, htu⟩

/-- Settles O60: by induction over the words the invariant leads from each state to the next, and the
recorded samples with it; a first reset cycle replaces the state by the reset state's block. -/
theorem everyCommandSequenceRunsFromReset : Obligations.EveryCommandSequenceRunsFromReset := by
  refine ⟨fun c ws hadm => ?_, fun s w ws hadm => ⟨fun hw => ?_, fun hb hw => ?_⟩⟩
  · have hreset : Inv (State.resetWith c) := .resetWith hadm
    obtain ⟨t, ht⟩ := hreset.leads ws
    obtain ⟨hcfg, htrace⟩ := ht.frame
    have hrecords : RecordsLastSamples (State.resetWith c).dec [] := ⟨rfl, rfl⟩
    obtain ⟨hpulse, hprevious⟩ := hrecords.leads ht
    exact ⟨t, ht.runOn, ht.inv hreset, htrace, hcfg, hpulse, hprevious⟩
  · have hreset : Inv (State.resetWith s.cfg) := .resetWith hadm
    obtain ⟨t, ht⟩ := hreset.leads ws
    obtain ⟨u, hu, hsame⟩ := leads_cons_rst hadm hw ht
    obtain ⟨hcfg, htrace⟩ := hu.frame
    exact ⟨t, u, ht.runOn, hu.runOn, hsame.registers, hsame.begun.trans (ht.inv hreset).begun,
      hcfg, htrace⟩
  · refine runOn_beforeReset hb fun hreset => ?_
    exact Bool.false_ne_true (hw.symm.trans (decodeCommand_eq_cycReset_iff.mp hreset))

end Sys2Proof.Machine
end

section
/-! SUPPORT. The tables (20_memory.md): the phase steps (R68), the fused table that the reads of a
start answer (R70), where a read has no answer (R73), the pulse-count table (R65), and the checks on
the reference tables (R64, R69). -/

namespace Sys2Proof

variable {c : Config}

theorem Config.sampleRate_pos (h : c.admitted = true) : 0 < c.sampleRate := by
  simp [Config.admitted, Config.stepsOk] at h; omega

theorem Config.sine_length (h : c.admitted = true) : c.sine.length = c.tableLen := by
  simp [Config.admitted, Config.tableOk] at h; omega

theorem Config.digitStep_length (h : c.admitted = true) : c.digitStep.length = 10 := by
  simp [Config.admitted, Config.stepsOk] at h
  simp only [Config.digitStep, List.length_map]; omega

namespace Machine

/-- The three table reads of a start answer the fused table's entry, and where it has none, nothing:
the frequencies of an entry are in the index set of `FREQ_STEP`. -/
theorem stepPair_eq_digitStep (c : Config) (d : Digit) : stepPair c d = c.digitStep[d.toNat]? := by
  rw [Config.digitStep, List.getElem?_map]
  cases h : c.digitFreq[d.toNat]? with
  | none => simp [stepPair, romDigitFreq, h]
  | some e => simp [stepPair_of_entry c e h]

theorem romSine_eq_none_iff {i : Nat} (h : c.admitted = true) :
    romSine c i = none ↔ c.tableLen ≤ i := by
  rw [romSine, List.getElem?_eq_none_iff, Config.sine_length h]

theorem stepPair_eq_none_iff {d : Digit} (h : c.admitted = true) :
    stepPair c d = none ↔ 10 ≤ d.toNat := by
  rw [stepPair_eq_digitStep, List.getElem?_eq_none_iff, Config.digitStep_length h]

/-- Settles O43: the step is a quotient with a positive divisor, and the bounds are a quotient's;
the fused table is read by `stepPair_eq_digitStep`. -/
theorem phaseStepsAreNearestIntegers : Obligations.PhaseStepsAreNearestIntegers := by
  refine ⟨fun c f h => ⟨rfl, ?_, ?_⟩, by decide, by decide, stepPair_eq_digitStep⟩
  · exact Nat.mul_div_le _ _
  · have hpos : 0 < 2 * c.sampleRate := Nat.mul_pos two_pos (Config.sampleRate_pos h)
    exact Nat.lt_mul_div_succ _ hpos

/-- Settles O41: the count is 10, another valid one, or none. -/
theorem pulseCountTable : Obligations.PulseCountTable := by
  intro n
  by_cases hten : n = 10#4
  · subst hten; decide
  have hne : n.toNat ≠ 10 := fun h => hten (BitVec.eq_of_toNat_eq h)
  by_cases hvalid : 1 ≤ n.toNat ∧ n.toNat ≤ 9
  · have hcount : countIsValid n = true := by simp [countIsValid]; omega
    simp [romPc2Digit, hcount, hten, hne, hvalid]
  · have hcount : countIsValid n = false := by simp [countIsValid]; omega
    simp [romPc2Digit, hcount, hten, hvalid]

/-! ### The reference tables -/

/-- The minimum and the maximum of the reference sine table stand at seven indices in a row each. -/
theorem sineRef_extremes : ∀ i < 256,
    (sineRef.getD i 0 = 0 ↔ 189 ≤ i ∧ i ≤ 195) ∧
      (sineRef.getD i 0 = 255 ↔ 61 ≤ i ∧ i ≤ 67) := by
  decide +kernel

/-- A sine reflects about its quarter turn. -/
theorem sineRef_reflects : ∀ i < 256, sineRef.getD i 0 = sineRef.getD ((384 - i) % 256) 0 := by
  decide +kernel

/-- Half a turn apart two entries mirror each other about the middle; at the zero crossings both are
ties rounded upward, and the sum is one more. -/
theorem sineRef_half_turn : ∀ i < 256,
    sineRef.getD i 0 + sineRef.getD ((i + 128) % 256) 0 = if i = 0 ∨ i = 128 then 256 else 255 := by
  decide +kernel

theorem digitStep_ref : Config.ref.digitStep =
    [(5, 4), (5, 3), (5, 3), (6, 3), (5, 3), (5, 3), (6, 3), (5, 3), (5, 3), (6, 3)] := by
  decide

/-- Settles O42: that `REF` is admitted bounds its table; the rest evaluates the literals. -/
theorem referenceTablesPassTheirChecks : Obligations.ReferenceTablesPassTheirChecks := by
  have hbound : ∀ i, sineRef.getD i 0 ≤ 255 := sine_le_ampMax Config.ref config_ref_admitted
  have hlength : sineRef.length = 256 := Config.sine_length config_ref_admitted
  have hsum : sineRef.sum = 32641 := by decide +kernel
  exact ⟨config_ref_admitted, hlength, hsum, fun i hi => ⟨hbound i, sineRef_extremes i hi⟩,
    sineRef_reflects, sineRef_half_turn, digitStep_ref, by decide, by decide, by decide, by decide⟩

end Machine

end Sys2Proof
end

section
/-! SUPPORT. Where the parts of a poll and of a sample tick are refused: the registers do not select
them (30_encoding.md R95, R96), or they read a table outside its index set (20_memory.md R73). -/

namespace Sys2Proof.Machine

variable {s : State} {i : Instr} {b : Bool} {op : State → Result}

theorem exec_of_admitted (h : s.cfg.admitted = true) : exec i s = event i (openCycle s) := by
  rw [exec_eq_inCycle_event, inCycle_of_admitted h]

theorem whenSelected_of_true (h : b = true) : whenSelected b op s = op s := by
  simp [whenSelected, h]

theorem whenSelected_of_false (h : b = false) : whenSelected b op s = .refused .notSelected := by
  simp [whenSelected, h]

theorem restIdle_notSelected (h : s.dec.pulseCount.toNat ≠ 0) :
    restIdle s = .refused .notSelected :=
  whenSelected_of_false (by simpa [countIsZero] using h)

theorem restEmit_notSelected (h : s.dec.pulseCount.toNat = 0 ∨ 11 ≤ s.dec.pulseCount.toNat) :
    restEmit s = .refused .notSelected :=
  whenSelected_of_false (by simp [countIsValid]; omega)

theorem restDiscard_notSelected (h : s.dec.pulseCount.toNat ≤ 10) :
    restDiscard s = .refused .notSelected :=
  whenSelected_of_false (by simp [countIsExcess]; omega)

theorem finishTone_notSelected (h : s.syn.remainingCycles ≠ 0) :
    finishTone s = .refused .notSelected :=
  whenSelected_of_false (by simpa using h)

theorem generate_notSelected (h : s.syn.remainingCycles ≤ 0) :
    generate s = .refused .notSelected :=
  whenSelected_of_false (by simpa using h)

theorem startTone_notSelected (h : 0 ≤ s.syn.remainingCycles ∨ s.slot.valid = false) :
    startTone s = .refused .notSelected :=
  whenSelected_of_false (by rcases h with h | h <;> simp [State.pending, h])

theorem idleTick_notSelected (h : 0 ≤ s.syn.remainingCycles ∨ s.slot.valid = true) :
    idleTick s = .refused .notSelected :=
  whenSelected_of_false (by rcases h with h | h <;> simp [State.pending, h])

theorem generate_romIndexOutOfRange (hadm : s.cfg.admitted = true)
    (hpos : 0 < s.syn.remainingCycles)
    (h : s.cfg.tableLen ≤ s.syn.highPhase ∨ s.cfg.tableLen ≤ s.syn.lowPhase) :
    generate s = .refused .romIndexOutOfRange := by
  rw [generate, whenSelected_of_true (decide_eq_true hpos)]
  rcases h with h | h
  · rw [(romSine_eq_none_iff hadm).mpr h]
  · rw [(romSine_eq_none_iff hadm).mpr h]
    cases romSine s.cfg s.syn.highPhase <;> rfl

theorem startTone_romIndexOutOfRange (hadm : s.cfg.admitted = true)
    (hneg : s.syn.remainingCycles < 0) (hv : s.slot.valid = true) (hd : 10 ≤ s.slot.digit.toNat) :
    startTone s = .refused .romIndexOutOfRange := by
  have hpair : stepPair s.cfg s.takeDigit = none := (stepPair_eq_none_iff hadm).mpr hd
  rw [startTone, whenSelected_of_true (by simp [State.pending, hneg, hv])]
  simp only [hpair]

/-- Settles O55: each operation is its part in the opened cycle, which has the registers of `s`. -/
theorem partsAreRefusedWhereTheyHaveNoMeaning :
    Obligations.PartsAreRefusedWhereTheyHaveNoMeaning := by
  intro s hadm
  have hopen : (openCycle s).cfg.admitted = true := hadm
  simp only [exec_of_admitted hadm]
  refine ⟨fun h => ?_, fun h => ?_, fun h => ?_, fun h => ?_, fun h => ?_, fun h => ?_, fun h => ?_,
    fun hpos h => ?_, fun hneg hv hd => ?_⟩
  · exact restIdle_notSelected h
  · exact restEmit_notSelected h
  · exact restDiscard_notSelected h
  · exact finishTone_notSelected h
  · exact generate_notSelected h
  · exact startTone_notSelected h
  · exact idleTick_notSelected h
  · exact generate_romIndexOutOfRange hopen hpos h
  · exact startTone_romIndexOutOfRange hopen hneg hv hd

end Sys2Proof.Machine
end

section
/-! SUPPORT. Words and their fields: a command word is its five bits and a slot command its three
fields (30_encoding.md R93, R97), decoding reads them, and encoding keeps what the row fixes and what
its operands carry (R94, R102, R108). -/

namespace Sys2Proof

variable {rst lo hi m p push take : Line} {d : Digit}

/-! ### The fields of a word -/

@[simp] theorem rstBit_commandWord : rstBit (commandWord rst lo hi m p) = rst := by
  decide +revert
@[simp] theorem tickLoBit_commandWord : tickLoBit (commandWord rst lo hi m p) = lo := by
  decide +revert
@[simp] theorem tickHiBit_commandWord : tickHiBit (commandWord rst lo hi m p) = hi := by
  decide +revert
@[simp] theorem movingBit_commandWord : movingBit (commandWord rst lo hi m p) = m := by
  decide +revert
@[simp] theorem pulseBit_commandWord : pulseBit (commandWord rst lo hi m p) = p := by
  decide +revert

@[simp] theorem pushBit_slotCommandWord : pushBit (slotCommandWord push take d) = push := by
  decide +revert
@[simp] theorem takeBit_slotCommandWord : takeBit (slotCommandWord push take d) = take := by
  decide +revert
@[simp] theorem pushDigitField_slotCommandWord :
    pushDigitField (slotCommandWord push take d) = d := by
  decide +revert

/-- A command word is its five bits. -/
theorem commandWord_of_bits (w : CommandWord) :
    commandWord (rstBit w) (tickLoBit w) (tickHiBit w) (movingBit w) (pulseBit w) = w := by
  decide +revert

/-- A slot command is its three fields. -/
theorem slotCommandWord_of_fields (w : SlotCommand) :
    slotCommandWord (pushBit w) (takeBit w) (pushDigitField w) = w := by
  decide +revert

/-! ### Decoding -/

theorem decodeCommand_eq_ite (w : CommandWord) : decodeCommand w =
    if rstBit w then .cycReset
    else if tickLoBit w then
      if tickHiBit w then .cycBoth (movingBit w) (pulseBit w)
      else .cycDec (movingBit w) (pulseBit w)
    else if tickHiBit w then .cycSyn else .cycNop := by
  unfold decodeCommand; split <;> simp_all

theorem decodeCommand_commandWord (rst lo hi m p : Line) : decodeCommand (commandWord rst lo hi m p) =
    if rst then .cycReset
    else if lo then if hi then .cycBoth m p else .cycDec m p
    else if hi then .cycSyn else .cycNop := by
  simp [decodeCommand_eq_ite]

theorem decodeSlotCommand_slotCommandWord (push take : Line) (d : Digit) :
    decodeSlotCommand (slotCommandWord push take d) =
      if push then if take then .slotPushTake d else .slotPush d
      else if take then .slotTake else .slotHold := by
  unfold decodeSlotCommand; split <;> simp_all

/-- Decoding an instruction's word gives the operation whose cycle performs it. -/
theorem decode_encode (i : Instr) : decode (encode i) = i.cycleOf := by
  cases i with
  | cycDec | cycBoth | decTick | decSample => exact decodeCommand_commandWord ..
  | slotPush | slotPushTake => exact decodeSlotCommand_slotCommandWord ..
  | _ => rfl

/-- What a word decodes to has words of its own. -/
theorem cycleOf_decode (w : InputWord) : (decode w).cycleOf = decode w := by
  cases w with
  | ports cw => simp only [decode, decodeCommand]; split <;> rfl
  | slot sc => simp only [decode, decodeSlotCommand]; split <;> rfl
  | outputRead => rfl

/-- The word has its row's width, and encoding what it decodes to keeps the row's fixed bits and its
operand bits: the two words differ at most in bits that the row ignores. -/
def EncodeDecodeKeeps (w : InputWord) : Prop :=
  (encode (decode w)).bits.1 = w.bits.1 ∧
    (encode (decode w)).bits.2 &&& ((decode w).row.mask ||| (decode w).operandMask) =
      w.bits.2 &&& ((decode w).row.mask ||| (decode w).operandMask)

theorem encodeDecodeKeeps_ports (w : CommandWord) : EncodeDecodeKeeps (.ports w) := by
  rw [← commandWord_of_bits w]
  generalize rstBit w = rst, tickLoBit w = lo, tickHiBit w = hi, movingBit w = m, pulseBit w = p
  simp only [EncodeDecodeKeeps, decode, decodeCommand_commandWord]
  cases rst with
  | true => decide +revert
  | false => cases lo <;> cases hi <;> decide +revert

theorem encodeDecodeKeeps_slot (w : SlotCommand) : EncodeDecodeKeeps (.slot w) := by
  rw [← slotCommandWord_of_fields w]
  generalize pushBit w = push, takeBit w = take, pushDigitField w = d
  simp only [EncodeDecodeKeeps, decode, decodeSlotCommand_slotCommandWord]
  cases push <;> cases take <;> decide +revert

theorem encodeDecodeKeeps (w : InputWord) : EncodeDecodeKeeps w := by
  cases w with
  | ports cw => exact encodeDecodeKeeps_ports cw
  | slot sc => exact encodeDecodeKeeps_slot sc
  | outputRead => exact ⟨rfl, rfl⟩

/-- Settles O2: decoding reads the fields that encoding writes; the two words differ in ignored bits
alone. -/
theorem decodeOfEncodeIsTheInstruction : Obligations.DecodeOfEncodeIsTheInstruction :=
  ⟨fun i h => (decode_encode i).trans h, decode_encode, encodeDecodeKeeps⟩

/-! ### Rows -/

/-- The word carries the row's bits: its width, and its match under its mask (R108). -/
def RowPattern.Matches (r : RowPattern) (w : InputWord) : Prop :=
  w.bits.1 = r.width ∧ w.bits.2 &&& r.mask = r.value

open Laws.WordMatchesRow in
theorem row_matches_encode (i : Instr) : i.row.Matches (encode i) :=
  i.casesOn cycReset cycNop cycDec cycSyn cycBoth decTick decSample decRestIdle decRestEmit
    decRestDiscard decMoveCount decMoveHold synTick synFinish synGen synStart synNop slotHold
    slotPush slotTake slotPushTake slotHasPending

/-- Words that agree on the bits of two masks agree on those of the first. -/
theorem and_eq_of_and_or_eq {a b j k : Nat} (h : a &&& (j ||| k) = b &&& (j ||| k)) :
    a &&& j = b &&& j := by
  have habsorb : (j ||| k) &&& j = j := by
    refine Nat.eq_of_testBit_eq fun n => ?_
    cases h : j.testBit n <;> simp [h]
  rw [← habsorb, ← Nat.and_assoc, h, Nat.and_assoc]

/-- A word matches the row it decodes to: so does the canonical word, and the two agree on the mask. -/
theorem row_matches_of_decode (w : InputWord) : (decode w).row.Matches w := by
  obtain ⟨hwidth, hbits⟩ := encodeDecodeKeeps w
  obtain ⟨hwidth', hmatch⟩ := row_matches_encode (decode w)
  exact ⟨hwidth.symm.trans hwidth', (and_eq_of_and_or_eq hbits).symm.trans hmatch⟩

/-- The ten rows whose operations have words of their own. -/
def ownRows : List RowPattern :=
  [Instr.cycReset, .cycNop, .cycDec false false, .cycSyn, .cycBoth false false, .slotHold,
    .slotPush 0, .slotTake, .slotPushTake 0, .slotHasPending].map Instr.row

theorem row_mem_ownRows {i : Instr} (h : i.cycleOf = i) : i.row ∈ ownRows := by
  cases i with
  | cycReset | cycNop | cycDec | cycSyn | cycBoth | slotHold | slotPush | slotTake | slotPushTake
  | slotHasPending => simp [ownRows, Instr.row]
  | _ => cases h

/-- Two of these rows differ in width or in a bit that both masks fix. -/
theorem ownRows_disjoint : ∀ a ∈ ownRows, ∀ b ∈ ownRows, a.width = b.width →
    a.value &&& b.mask = b.value &&& a.mask → a = b := by
  decide

/-- A word carries the bits of one of these rows at most. -/
theorem RowPattern.Matches.unique {a b : RowPattern} {w : InputWord} (ha : a ∈ ownRows)
    (hb : b ∈ ownRows) (hwa : a.Matches w) (hwb : b.Matches w) : a = b := by
  obtain ⟨hwidth, hvalue⟩ := hwa
  obtain ⟨hwidth', hvalue'⟩ := hwb
  refine ownRows_disjoint a ha b hb (hwidth.symm.trans hwidth') ?_
  rw [← hvalue, ← hvalue', Nat.and_right_comm]

/-- Settles O3: a word matches the row it decodes to, and no second one. -/
theorem wordMatchesItsRowExactly : Obligations.WordMatchesItsRowExactly := by
  intro i w hi
  have hown := row_matches_of_decode w
  exact ⟨fun h => h ▸ hown,
    fun h => hown.unique (row_mem_ownRows (cycleOf_decode w)) (row_mem_ownRows hi) h⟩

/-- Settles O1: the sixteen words, evaluated. -/
theorem sampleWordsDecode : Obligations.SampleWordsDecode := by
  unfold Obligations.SampleWordsDecode; decide

/-- Settles O4: the five patterns as a decision on the bits; where `rst` is 1 or `tick_lo` is 0 no
branch reads the line bits. -/
theorem commandWordSelectsItsOperation : Obligations.CommandWordSelectsItsOperation := by
  refine ⟨decodeCommand_eq_ite, fun rst lo hi m p m' p' h => ?_⟩
  rw [decodeCommand_commandWord, decodeCommand_commandWord]
  rcases h with rfl | rfl <;> rfl

end Sys2Proof
end

section
/-! SUPPORT. A cycle and the list of its operations (30_encoding.md R94 to R96): the operations of a poll
are one poll, that of a sample tick is one sample tick, and opening a cycle between the two events of a
cycle with both ticks changes outputs only. -/

namespace Sys2Proof.Machine

variable {s t u : State} {w : CommandWord} {m p : Line}

/-! ### Outputs are not read -/

/-- The state with other recorded outputs. -/
def withOut (o : Outputs) (s : State) : State := { s with out := o }

theorem sampleTick_withOut (o : Outputs) (h : sampleTick s = .next t) :
    ∃ o', sampleTick (withOut o s) = .next (withOut o' t) := by
  rcases sampleTick_cases h with hp | hp | hp | hp
  · obtain ⟨h0, rfl⟩ := finishTone_next_iff.mp hp
    exact ⟨_, sampleTick_of_part .finish (finishTone_next_iff.mpr ⟨h0, rfl⟩)⟩
  · obtain ⟨hpos, a, b, ha, hb, rfl⟩ := generate_next_iff.mp hp
    exact ⟨_, sampleTick_of_part .gen (generate_next_iff.mpr ⟨hpos, a, b, ha, hb, rfl⟩)⟩
  · obtain ⟨hneg, hv, a, b, hpair, rfl⟩ := startTone_next_iff.mp hp
    exact ⟨_, sampleTick_of_part .start (startTone_next_iff.mpr ⟨hneg, hv, a, b, hpair, rfl⟩)⟩
  · obtain ⟨hneg, hv, rfl⟩ := idleTick_next_iff.mp hp
    exact ⟨_, sampleTick_of_part .nop (idleTick_next_iff.mpr ⟨hneg, hv, rfl⟩)⟩

/-- Both outcomes are a next state or neither is, and the registers agree. -/
def SameOutcome (r r' : Result) : Prop :=
  (∀ t, r = .next t → ∃ u, r' = .next u ∧ SameRegisters t u) ∧
    ∀ u, r' = .next u → ∃ t, r = .next t ∧ SameRegisters t u

theorem SameOutcome.refl (r : Result) : SameOutcome r r :=
  ⟨fun t h => ⟨t, h, rfl, rfl, rfl⟩, fun u h => ⟨u, h, rfl, rfl, rfl⟩⟩

theorem SameOutcome.next (h : SameRegisters s t) : SameOutcome (.next s) (.next t) :=
  ⟨fun _ hs => ⟨t, rfl, by cases hs; exact h⟩, fun _ ht => ⟨s, rfl, by cases ht; exact h⟩⟩

theorem sampleTick_sameOutcome_openCycle (s : State) :
    SameOutcome (sampleTick s) (sampleTick (openCycle s)) := by
  refine ⟨fun t h => ?_, fun u h => ?_⟩
  · obtain ⟨o, ho⟩ := sampleTick_withOut (openCycle s).out h
    exact ⟨_, ho, rfl, rfl, rfl⟩
  · obtain ⟨o, ho⟩ := sampleTick_withOut s.out h
    exact ⟨_, ho, rfl, rfl, rfl⟩

/-! ### Lists of operations -/

theorem serially_next (first second : State → Result) (h : first s = .next t) :
    serially first second s = second t := by
  simp only [serially, h]

theorem serially_return (op : State → Result) (s : State) : serially op .next s = op s := by
  unfold serially; cases op s <;> rfl

theorem execAll_singleton (i : Instr) (s : State) : execAll [i] s = exec i s :=
  serially_return (exec i) s

theorem execAll_append (is js : List Instr) (s : State) :
    execAll (is ++ js) s = serially (execAll is) (execAll js) s := by
  induction is generalizing s with
  | nil => rfl
  | cons i is ih =>
    simp only [List.cons_append, execAll, serially]
    cases exec i s with
    | next t => exact ih t
    | fault r => rfl
    | refused r => rfl

/-! ### The operations of an event -/

theorem event_pollInstr (a : PollPart) : event (pollInstr a) = pollPart a := by
  cases a <;> rfl

theorem event_tickInstr (a : TickPart) : event (tickInstr a) = tickPart a := by
  cases a <;> rfl

/-- The operations of a poll are one poll: after sampling, opening the part's cycle changes nothing. -/
theorem execAll_pollOperations (hadm : s.cfg.admitted = true) : execAll (pollOperations s w) s =
    .next (afterPoll (movingBit w) (pulseBit w) (openCycle s)) := by
  have hsample : exec (.decSample (movingBit w) (pulseBit w)) s =
      .next (sampleLines (movingBit w) (pulseBit w) (openCycle s)) := exec_of_admitted hadm
  have hsampled : (sampleLines (movingBit w) (pulseBit w) (openCycle s)).cfg.admitted = true := hadm
  calc execAll (pollOperations s w) s
      = exec (pollInstr (selectPoll s.dec (movingBit w) (pulseBit w)))
          (sampleLines (movingBit w) (pulseBit w) (openCycle s)) :=
        (serially_next _ _ hsample).trans (execAll_singleton _ _)
    _ = poll (movingBit w) (pulseBit w) (openCycle s) := by
        rw [exec_of_admitted hsampled, event_pollInstr]; rfl
    _ = _ := poll_eq_afterPoll _ _ _

/-- The operation of a sample tick is one sample tick, where `pending` is what the tick sees. -/
theorem exec_tickOperation (hadm : s.cfg.admitted = true) :
    exec (tickInstr (selectTick s.syn.remainingCycles s.slot.valid)) s = sampleTick (openCycle s) := by
  rw [exec_of_admitted hadm, event_tickInstr]; rfl

/-! ### The slot in a poll, and `pending` as the sample tick of the cycle sees it -/

theorem selectPoll_eq_restEmit_iff {d : DecRegs} :
    selectPoll d m p = .restEmit ↔ m = true ∧ countIsValid d.pulseCount = true := by
  cases m with
  | false => by_cases hr : rising d.pulseSignal p = true <;> simp [selectPoll, atRest, hr]
  | true =>
    by_cases h0 : d.pulseCount.toNat = 0
    · simp [selectPoll, atRest, countIsZero, countIsValid, h0]
    · cases hv : countIsValid d.pulseCount <;> simp [selectPoll, atRest, countIsZero, h0, hv]

/-- Where the part is `DEC.REST.EMIT`, the count has a digit and the poll leaves it pending. -/
theorem slotAfterPoll_of_restEmit (h : selectPoll s.dec m p = .restEmit) :
    ∃ d, romPc2Digit s.dec.pulseCount = some d ∧ d.toNat ≤ 9 ∧
      slotAfterPoll m s = { s.slot with valid := true, digit := d } := by
  obtain ⟨rfl, hvalid⟩ := selectPoll_eq_restEmit_iff.mp h
  obtain ⟨d, hd⟩ := Option.isSome_iff_exists.mp ((romPc2Digit_isSome_iff _).trans hvalid)
  exact ⟨d, hd, romPc2Digit_decimal _ d hd, by simp [slotAfterPoll, hd]⟩

/-- A poll with another part keeps the slot. -/
theorem slotAfterPoll_of_ne_restEmit (h : selectPoll s.dec m p ≠ .restEmit) :
    slotAfterPoll m s = s.slot := by
  cases m with
  | false => rfl
  | true =>
    have hnone : romPc2Digit s.dec.pulseCount = none := by
      rw [← Option.not_isSome_iff_eq_none, romPc2Digit_isSome_iff]
      exact fun hvalid => h (selectPoll_eq_restEmit_iff.mpr ⟨rfl, hvalid⟩)
    simp [slotAfterPoll, hnone]

theorem afterPoll_valid (m p : Line) (s : State) : (afterPoll m p s).slot.valid =
    (s.slot.valid || selectPoll s.dec m p == .restEmit) := by
  have hslot : (afterPoll m p s).slot = slotAfterPoll m s := rfl
  by_cases h : selectPoll s.dec m p = .restEmit
  · obtain ⟨d, -, -, hd⟩ := slotAfterPoll_of_restEmit h
    simp [hslot, hd, h]
  · simp [hslot, slotAfterPoll_of_ne_restEmit h, h]

/-- Without a poll in the cycle the sample tick sees the old valid bit. -/
theorem pendingAtTick_of_tickLo_false (s : State) (h : tickLoBit w = false) :
    pendingAtTick s w = s.slot.valid := by
  unfold pendingAtTick; split <;> simp [pushes, h]

theorem pendingAtTick_synFirst (w : CommandWord) (h : s.cfg.coincidentOrder = .synFirst) :
    pendingAtTick s w = s.slot.valid := by
  simp [pendingAtTick, h]

/-- Under `DEC_FIRST` the sample tick sees the slot that the poll leaves. -/
theorem pendingAtTick_decFirst (h : s.cfg.coincidentOrder = .decFirst) (hr : rstBit w = false)
    (hlo : tickLoBit w = true) :
    pendingAtTick s w = (afterPoll (movingBit w) (pulseBit w) s).slot.valid := by
  simp [pendingAtTick, h, pushes, hr, hlo, afterPoll_valid]

/-! ### A cycle is its operations -/

theorem execAll_tickOperations (hadm : s.cfg.admitted = true)
    (hp : pendingAtTick u w = s.slot.valid) (hc : u.syn = s.syn) :
    execAll (tickOperations u w) s = sampleTick (openCycle s) := by
  rw [tickOperations, execAll_singleton, hp, hc, exec_tickOperation hadm]

/-- A sample tick, then a poll: of the same cycle, or in a cycle of its own. -/
theorem sameOutcome_tick_then_poll (hadm : s.cfg.admitted = true)
    (ho : s.cfg.coincidentOrder = .synFirst) :
    SameOutcome (bothTicks (movingBit w) (pulseBit w) (openCycle s))
      (execAll (tickOperations s w ++ pollOperations s w) s) := by
  have hboth : bothTicks (movingBit w) (pulseBit w) (openCycle s) =
      serially sampleTick (poll (movingBit w) (pulseBit w)) (openCycle s) := by
    simp [bothTicks, ho]
  have htick := execAll_tickOperations hadm (pendingAtTick_synFirst w ho) rfl
  rw [hboth, execAll_append, serially, serially, htick]
  cases h : sampleTick (openCycle s) with
  | next u =>
    obtain ⟨hdec, hcfg, -⟩ := sampleTick_frame h
    have hops : pollOperations s w = pollOperations u w := by
      rw [pollOperations, pollOperations, hdec, openCycle_dec]
    have hadm' : u.cfg.admitted = true := hcfg ▸ hadm
    simp only [hops, execAll_pollOperations hadm', poll_eq_afterPoll]
    exact .next ⟨rfl, rfl, rfl⟩
  | fault r => exact .refl _
  | refused r => exact .refl _

/-- A poll, then a sample tick: of the same cycle, or in a cycle of its own. -/
theorem sameOutcome_poll_then_tick (hadm : s.cfg.admitted = true)
    (ho : s.cfg.coincidentOrder = .decFirst) (hr : rstBit w = false) (hlo : tickLoBit w = true) :
    SameOutcome (bothTicks (movingBit w) (pulseBit w) (openCycle s))
      (execAll (pollOperations s w ++ tickOperations s w) s) := by
  have hboth : bothTicks (movingBit w) (pulseBit w) (openCycle s) =
      sampleTick (afterPoll (movingBit w) (pulseBit w) (openCycle s)) := by
    simp only [bothTicks, openCycle_cfg, ho]
    exact serially_next _ _ (poll_eq_afterPoll _ _ _)
  have htick : execAll (tickOperations s w) (afterPoll (movingBit w) (pulseBit w) (openCycle s)) = _ :=
    execAll_tickOperations hadm (pendingAtTick_decFirst ho hr hlo) rfl
  rw [hboth, execAll_append, serially_next _ _ (execAll_pollOperations hadm), htick]
  exact sampleTick_sameOutcome_openCycle _

theorem sameOutcome_operationsOf (hadm : s.cfg.admitted = true) (w : CommandWord) :
    SameOutcome (exec (decodeCommand w) s) (execAll (operationsOf s w) s) := by
  rcases decodeCommand_bits w with ⟨hr, hw⟩ | ⟨hr, hlo, hhi, hw⟩ | ⟨hr, hlo, hhi, hw⟩ |
    ⟨hr, hlo, hhi, hw⟩ | ⟨hr, hlo, hhi, hw⟩ <;> rw [hw]
  · have hops : operationsOf s w = [.cycReset] := by simp [operationsOf, hr]
    rw [hops, execAll_singleton]
    exact .refl _
  · have hops : operationsOf s w = [] := by simp [operationsOf, hr, hlo, hhi]
    rw [hops, exec_of_admitted hadm]
    exact .next ⟨rfl, rfl, rfl⟩
  · have hops : operationsOf s w = pollOperations s w := by simp [operationsOf, hr, hlo, hhi]
    rw [hops, exec_of_admitted hadm, execAll_pollOperations hadm, ← poll_eq_afterPoll]
    exact .refl _
  · have hops : operationsOf s w = tickOperations s w := by simp [operationsOf, hr, hlo, hhi]
    rw [hops, exec_of_admitted hadm,
      execAll_tickOperations hadm (pendingAtTick_of_tickLo_false s hlo) rfl]
    exact .refl _
  · rw [exec_of_admitted hadm]
    cases ho : s.cfg.coincidentOrder with
    | synFirst =>
      have hops : operationsOf s w = tickOperations s w ++ pollOperations s w := by
        simp [operationsOf, hr, hlo, hhi, ho]
      rw [hops]
      exact sameOutcome_tick_then_poll hadm ho
    | decFirst =>
      have hops : operationsOf s w = pollOperations s w ++ tickOperations s w := by
        simp [operationsOf, hr, hlo, hhi, ho]
      rw [hops]
      exact sameOutcome_poll_then_tick hadm ho hr hlo

/-- Settles O15: by the five patterns of the word; only a cycle with both ticks opens further cycles
where it had one. -/
theorem cycleIsItsOperations : Obligations.CycleIsItsOperations :=
  fun _ w hadm => sameOutcome_operationsOf hadm w

end Sys2Proof.Machine
end

section
/-! SUPPORT. The slot in a cycle and the slot command of the cycle (30_encoding.md R92, R97): a poll does
to the slot what its push bit says, a sample tick what its take bit says, and in a cycle with both the
order is the configuration's in the cycle and in the slot alike (40_slot.md R134). -/

namespace Sys2Proof.Machine

variable {s t u : State} {w : CommandWord} {m p : Line} {b : Bool} {d : Digit}

/-! ### The slot command of a cycle -/

theorem pushes_iff : pushes s w = true ↔ rstBit w = false ∧ tickLoBit w = true ∧
    selectPoll s.dec (movingBit w) (pulseBit w) = .restEmit := by
  simp [pushes, and_assoc]

theorem takes_iff : takes s w = true ↔ rstBit w = false ∧ tickHiBit w = true ∧
    selectTick s.syn.remainingCycles (pendingAtTick s w) = .start := by
  simp [takes, and_assoc]

theorem pushes_of_tickLo_false (h : tickLoBit w = false) : pushes s w = false := by
  simp [pushes, h]

theorem takes_of_tickHi_false (h : tickHiBit w = false) : takes s w = false := by
  simp [takes, h]

theorem pushes_of_poll (hr : rstBit w = false) (hlo : tickLoBit w = true) :
    pushes s w = (selectPoll s.dec (movingBit w) (pulseBit w) == .restEmit) := by
  simp [pushes, hr, hlo]

theorem takes_of_tick (hr : rstBit w = false) (hhi : tickHiBit w = true) :
    takes s w = (selectTick s.syn.remainingCycles (pendingAtTick s w) == .start) := by
  simp [takes, hr, hhi]

/-- The digit that the poll of the cycle pushes; 0 where the count has none. -/
def pushedDigit (s : State) : Digit := (romPc2Digit s.dec.pulseCount).getD 0

theorem pushDigitField_slotCommandOf (h : pushes s w = true) :
    pushDigitField (slotCommandOf s w) = pushedDigit s := by
  simp [slotCommandOf, pushedDigit, h]

/-- A count that is pushed has a digit. -/
theorem romPc2Digit_of_restEmit (h : selectPoll s.dec m p = .restEmit) :
    romPc2Digit s.dec.pulseCount = some (pushedDigit s) := by
  obtain ⟨d, hd, -⟩ := slotAfterPoll_of_restEmit h
  simp [pushedDigit, hd]

/-! ### Where the slot and its wires agree -/

/-- The slot's registers and the wires `take` and `take_digit` agree. -/
structure SlotAgrees (s t : State) : Prop where
  slot : s.slot = t.slot
  take : s.out.take = t.out.take
  takeDigit : s.out.takeDigit = t.out.takeDigit

theorem SlotAgrees.refl (s : State) : SlotAgrees s s := ⟨rfl, rfl, rfl⟩

theorem SlotAgrees.trans (h : SlotAgrees s t) (h' : SlotAgrees t u) : SlotAgrees s u :=
  ⟨h.slot.trans h'.slot, h.take.trans h'.take, h.takeDigit.trans h'.takeDigit⟩

/-- A push where the push bit is 1. -/
def pushIf (b : Bool) (d : Digit) (s : State) : State := if b then slotPush d s else s

/-- A take where the take bit is 1. -/
def takeIf (b : Bool) (s : State) : State := if b then slotTake s else s

theorem SlotAgrees.pushIf (h : SlotAgrees s t) (b : Bool) (d : Digit) :
    SlotAgrees (pushIf b d s) (pushIf b d t) := by
  obtain ⟨hslot, htake, hdigit⟩ := h
  unfold Machine.pushIf
  split
  · constructor
    · unfold slotPush; split <;> simp [raiseFault, hslot]
    · simpa using htake
    · simpa using hdigit
  · exact ⟨hslot, htake, hdigit⟩

theorem SlotAgrees.takeIf (h : SlotAgrees s t) (b : Bool) : SlotAgrees (takeIf b s) (takeIf b t) := by
  unfold Machine.takeIf
  split
  · have hslot := h.slot
    constructor
    · unfold slotTake faultIfEmpty; rw [hslot]; split <;> simp [raiseFault, hslot]
    · simp
    · simp [hslot]
  · exact h

/-! ### The events -/

theorem selectTick_finish {r : Int} (h : r = 0) (v : Line) : selectTick r v = .finish := by
  simp [selectTick, h]

theorem selectTick_gen {r : Int} (h : 0 < r) (v : Line) : selectTick r v = .gen := by
  simp [selectTick, h, h.ne']

theorem selectTick_idle {r : Int} (h : r < 0) (v : Line) :
    selectTick r v = if v then .start else .nop := by
  simp [selectTick, h.ne, h.le]

/-- A poll does to the slot what its push bit says. -/
theorem slotAgrees_afterPoll (m p : Line) (s : State) :
    SlotAgrees (afterPoll m p s) (pushIf (selectPoll s.dec m p == .restEmit) (pushedDigit s) s) := by
  unfold pushIf
  refine ⟨?_, by split <;> simp, by split <;> simp⟩
  by_cases h : selectPoll s.dec m p = .restEmit
  · obtain ⟨d, hd, hdec, hslot⟩ := slotAfterPoll_of_restEmit h
    have hpush : pushedDigit s = d := by simp [pushedDigit, hd]
    simp [afterPoll, h, hslot, hpush, slotPush_decimal hdec]
  · simp [afterPoll, h, slotAfterPoll_of_ne_restEmit h]

/-- A sample tick does to the slot what its take bit says. -/
theorem slotAgrees_sampleTick (h : sampleTick s = .next t) :
    SlotAgrees t (takeIf (selectTick s.syn.remainingCycles s.slot.valid == .start) s) := by
  rcases sampleTick_cases h with hp | hp | hp | hp
  · obtain ⟨h0, rfl⟩ := finishTone_next_iff.mp hp
    rw [selectTick_finish h0]
    exact ⟨rfl, rfl, rfl⟩
  · obtain ⟨hpos, _, _, _, _, rfl⟩ := generate_next_iff.mp hp
    rw [selectTick_gen hpos]
    exact ⟨rfl, rfl, rfl⟩
  · obtain ⟨hneg, hv, _, _, _, rfl⟩ := startTone_next_iff.mp hp
    rw [selectTick_idle hneg, hv]
    change SlotAgrees _ (slotTake s)
    exact ⟨(slotTake_pending hv).symm, by simp, by simp⟩
  · obtain ⟨hneg, hv, rfl⟩ := idleTick_next_iff.mp hp
    rw [selectTick_idle hneg, hv]
    exact .refl s

/-! ### The cycle and its slot command -/

/-- The push and the take that the slot command's bits ask for, in the order of the configuration. -/
def pushTakeIf (push take : Line) (d : Digit) (s : State) : State :=
  match s.cfg.coincidentOrder with
  | .synFirst => pushIf push d (takeIf take s)
  | .decFirst => takeIf take (pushIf push d s)

theorem pushTakeIf_false_left (take : Line) (d : Digit) (s : State) :
    pushTakeIf false take d s = takeIf take s := by
  unfold pushTakeIf; split <;> rfl

theorem pushTakeIf_false_right (push : Line) (d : Digit) (s : State) :
    pushTakeIf push false d s = pushIf push d s := by
  unfold pushTakeIf; split <;> rfl

theorem exec_slotCommand (hadm : s.cfg.admitted = true) (push take : Line) (d : Digit) :
    exec (decodeSlotCommand (slotCommandWord push take d)) s =
      .next (pushTakeIf push take d (openCycle s)) := by
  rw [decodeSlotCommand_slotCommandWord, exec_of_admitted hadm]
  cases push with
  | false => rw [pushTakeIf_false_left]; cases take <;> rfl
  | true =>
    cases take with
    | false => rw [pushTakeIf_false_right]; rfl
    | true => rfl

/-- The digit field is not read where the push bit is 0. -/
theorem exec_slotCommandOf (hadm : s.cfg.admitted = true) (w : CommandWord) :
    exec (decodeSlotCommand (slotCommandOf s w)) s =
      .next (pushTakeIf (pushes s w) (takes s w) (pushedDigit s) (openCycle s)) := by
  rw [slotCommandOf, exec_slotCommand hadm]
  cases pushes s w with
  | false => rw [pushTakeIf_false_left, pushTakeIf_false_left]
  | true => rfl

/-- In a cycle with `rst = 0` the slot and its wires do what the bits of the slot command say. -/
theorem slotAgrees_command (hr : rstBit w = false) (h : exec (decodeCommand w) s = .next t) :
    SlotAgrees t (pushTakeIf (pushes s w) (takes s w) (pushedDigit s) (openCycle s)) := by
  rcases decodeCommand_bits w with ⟨hr', -⟩ | ⟨-, hlo, hhi, hw⟩ | ⟨-, hlo, hhi, hw⟩ |
    ⟨-, hlo, hhi, hw⟩ | ⟨-, hlo, hhi, hw⟩
  · rw [hr] at hr'; cases hr'
  all_goals rw [hw] at h
  · obtain ⟨-, rfl⟩ := exec_cycNop_next_iff.mp h
    rw [pushes_of_tickLo_false hlo, takes_of_tickHi_false hhi, pushTakeIf_false_left]
    exact .refl _
  · obtain ⟨-, rfl⟩ := exec_cycDec_next_iff.mp h
    rw [pushes_of_poll hr hlo, takes_of_tickHi_false hhi, pushTakeIf_false_right]
    exact slotAgrees_afterPoll _ _ _
  · obtain ⟨-, htick⟩ := exec_cycSyn_next_iff.mp h
    rw [pushes_of_tickLo_false hlo, takes_of_tick hr hhi, pendingAtTick_of_tickLo_false s hlo,
      pushTakeIf_false_left]
    exact slotAgrees_sampleTick htick
  · rw [pushes_of_poll hr hlo, takes_of_tick hr hhi]
    unfold pushTakeIf
    obtain ⟨-, ⟨ho, u, htick, rfl⟩ | ⟨ho, htick⟩⟩ := exec_cycBoth_next_iff.mp h
    · have hpoll := slotAgrees_afterPoll (movingBit w) (pulseBit w) u
      rw [pushedDigit, (sampleTick_frame htick).1] at hpoll
      simp only [openCycle_cfg, ho, pendingAtTick_synFirst w ho]
      exact hpoll.trans ((slotAgrees_sampleTick htick).pushIf _ _)
    · simp only [openCycle_cfg, ho, pendingAtTick_decFirst ho hr hlo]
      exact (slotAgrees_sampleTick htick).trans ((slotAgrees_afterPoll _ _ _).takeIf _)

/-- Settles O16: the bits of the slot command are the parts that the poll and the sample tick select, and
each event does to the slot what its bit says. -/
theorem slotFollowsItsCommand : Obligations.SlotFollowsItsCommand := by
  refine ⟨fun d => ⟨?_, ?_, ?_, ?_⟩, fun s w => ⟨?_, fun h => ?_, ?_⟩, fun s t w hr h => ?_⟩
  iterate 4 exact decodeSlotCommand_slotCommandWord ..
  · rw [slotCommandOf, pushBit_slotCommandWord, pushes_iff]
  · rw [slotCommandOf, pushBit_slotCommandWord] at h
    obtain ⟨-, -, hemit⟩ := pushes_iff.mp h
    rw [pushDigitField_slotCommandOf h, romPc2Digit_of_restEmit hemit]
  · rw [slotCommandOf, takeBit_slotCommandWord, takes_iff]
  · have hadm := (exec_next_iff_event.mp h).1
    obtain ⟨hslot, htake, hdigit⟩ := slotAgrees_command hr h
    exact ⟨_, exec_slotCommandOf hadm w, hslot, htake, hdigit⟩

end Sys2Proof.Machine
end

section
/-! SUPPORT. A rotation of the dial (41_decoder.md R158, 30_encoding.md R107): polls with the dial moving
count the rising edges of `pulse`, saturating at 15, and the poll at rest pushes the digit of the count.
`DIAL(n)` is a rotation with `n` rising edges. -/

namespace Sys2Proof.Machine

variable {s t : State} {m p : Line} {rest : List InputWord}

/-! ### Polls of a run -/

theorem runOn_cmdD_cons (hadm : s.cfg.admitted = true) (hb : s.begun = true) :
    runOn (cmdD m p :: rest) s = runOn rest (afterPoll m p (openCycle s)) := by
  refine runOn_cons ?_
  rw [decodeCommand_commandWord, perform_of_begun hb]
  exact exec_cycDec_next_iff.mpr ⟨hadm, rfl⟩

theorem countUp_toNat (n : BitVec 4) : (countUp n).toNat = min (n.toNat + 1) 15 := by
  simp only [countUp, BitVec.toNat_ofNat]; omega

/-- A poll with the dial moving adds a rising edge to the count, up to 15. -/
theorem countAfterPoll_moving (p : Line) (s : State) : (countAfterPoll false p s).toNat =
    min (s.dec.pulseCount.toNat + risingEdges s.dec.pulseSignal [p]) 15 := by
  have hlt := s.dec.pulseCount.isLt
  cases hq : s.dec.pulseSignal <;> cases p <;>
    simp [countAfterPoll, rising, risingEdges, hq, countUp_toNat] <;> omega

/-- `t` is reached from `s` by polls with the dial moving that sample `pulse` as listed. -/
structure Moved (samples : List Line) (s t : State) : Prop where
  context : SameContext s t
  slot : t.slot = s.slot
  syn : t.syn = s.syn
  count : t.dec.pulseCount.toNat =
    min (s.dec.pulseCount.toNat + risingEdges s.dec.pulseSignal samples) 15

theorem Moved.nil (s : State) : Moved [] s s := by
  refine ⟨⟨rfl, rfl, rfl⟩, rfl, rfl, ?_⟩
  have hlt := s.dec.pulseCount.isLt
  simp only [risingEdges]; omega

theorem Moved.cons {samples : List Line}
    (h : Moved samples (afterPoll false p (openCycle s)) t) : Moved (p :: samples) s t := by
  refine ⟨⟨h.context.cfg, h.context.trace, h.context.begun⟩, h.slot, h.syn, ?_⟩
  have hcount : (afterPoll false p (openCycle s)).dec.pulseCount.toNat = _ :=
    countAfterPoll_moving p (openCycle s)
  have hpulse : (afterPoll false p (openCycle s)).dec.pulseSignal = p := rfl
  rw [h.count, hcount, hpulse, openCycle_dec]
  simp only [risingEdges]
  omega

theorem runOn_moving (hadm : s.cfg.admitted = true) (hb : s.begun = true) (samples : List Line) :
    ∃ t, Moved samples s t ∧ runOn (samples.map (cmdD false) ++ rest) s = runOn rest t := by
  induction samples generalizing s with
  | nil => exact ⟨s, .nil s, rfl⟩
  | cons p ps ih =>
    obtain ⟨t, ht, hrun⟩ := ih (s := afterPoll false p (openCycle s)) hadm hb
    exact ⟨t, ht.cons, (runOn_cmdD_cons hadm hb).trans hrun⟩

/-! ### A whole rotation -/

/-- The digit of a count that has saturated at 15 is the digit of the number of pulses: neither has one
above 10. -/
theorem romPc2Digit_of_pulses {c : BitVec 4} {n : Nat} (h : c.toNat = min n 15) :
    romPc2Digit c = (digitOfPulses n).map (BitVec.ofNat 4) := by
  rw [pulseCountTable c]
  by_cases hten : n = 10
  · obtain rfl : c = 10#4 := BitVec.eq_of_toNat_eq (by simpa [hten] using h)
    subst hten; rfl
  have hne : c ≠ 10#4 := fun hc => by rw [hc, BitVec.toNat_ofNat] at h; omega
  by_cases hvalid : 1 ≤ n ∧ n ≤ 9
  · obtain rfl : c.toNat = n := by omega
    simp [digitOfPulses, hne, hvalid]
  · have hc : ¬ (1 ≤ c.toNat ∧ c.toNat ≤ 9) := by omega
    rw [if_neg hne, if_neg hc, digitOfPulses, if_neg hvalid, if_neg hten]; rfl

/-- From count 0, a rotation and the poll at rest after it. -/
theorem runOn_rotation (hadm : s.cfg.admitted = true) (hb : s.begun = true)
    (h0 : s.dec.pulseCount = 0#4) (samples : List Line) (q : Line) :
    ∃ t, runOn (samples.map (cmdD false) ++ [cmdD true q]) s = .next t ∧
      t.dec.pulseCount = 0#4 ∧
      t.slot = slotAfterRotation (risingEdges s.dec.pulseSignal samples) s.slot ∧
      t.syn = s.syn ∧ t.cfg = s.cfg ∧ t.trace = s.trace := by
  obtain ⟨u, hu, hrun⟩ := runOn_moving (rest := [cmdD true q]) hadm hb samples
  have hrest := runOn_cmdD_cons (m := true) (p := q) (rest := []) (hu.context.cfg ▸ hadm)
    (hu.context.begun.trans hb)
  refine ⟨_, hrun.trans hrest, rfl, ?_, hu.syn, hu.context.cfg, hu.context.trace⟩
  have hcount := hu.count
  rw [h0, BitVec.toNat_ofNat, Nat.zero_mod, Nat.zero_add] at hcount
  change slotAfterPoll true (openCycle u) = _
  unfold slotAfterPoll slotAfterRotation
  rw [openCycle_dec, openCycle_slot, romPc2Digit_of_pulses hcount, hu.slot]
  cases digitOfPulses (risingEdges s.dec.pulseSignal samples) <;> rfl

/-! ### `DIAL(n)` -/

/-- What `DIAL(n)` samples while the dial moves. -/
def dialSamples : Nat → List Line
  | 0 => [false]
  | n + 1 => false :: true :: dialSamples n

theorem dial_eq_rotation (n : Nat) :
    dial n = (dialSamples n).map (cmdD false) ++ [cmdD true false] := by
  unfold dial
  induction n with
  | zero => rfl
  | succ n ih => simpa [pulses, pulseCmd, dialSamples] using ih

theorem risingEdges_dialSamples (prev : Line) (n : Nat) : risingEdges prev (dialSamples n) = n := by
  induction n generalizing prev with
  | zero => simp [dialSamples, risingEdges]
  | succ n ih => simp [dialSamples, risingEdges, ih, Nat.add_comm]

/-- Settles O28: `DIAL(n)` is a rotation with `n` rising edges, whatever the sample before it. -/
theorem dialPushesItsDigit : Obligations.DialPushesItsDigit := by
  intro s n hadm hb h0
  obtain ⟨t, hrun, hcount, hslot, hsyn, -, htrace⟩ :=
    runOn_rotation hadm hb h0 (dialSamples n) false
  rw [risingEdges_dialSamples] at hslot
  exact ⟨t, dial_eq_rotation n ▸ hrun, hcount, hslot, hsyn, htrace⟩

end Sys2Proof.Machine
end

section
/-! SUPPORT. What the ports and the wire `take_digit` show (30_encoding.md R91, R92): opening the cycle
records them, no event writes a port, and a take shows the digit that the slot held, but where a push
came before it (40_slot.md R134). -/

namespace Sys2Proof.Machine

variable {s t u : State} {i : Instr}

/-- The outputs that show the state held during the cycle: all but the strobe and the take. -/
structure SamePorts (s t : State) : Prop where
  level : t.out.level = s.out.level
  idle : t.out.idle = s.out.idle
  pending : t.out.pending = s.out.pending
  fault : t.out.fault = s.out.fault

theorem SamePorts.of_out (h : t.out = s.out) : SamePorts s t := by
  constructor <;> rw [h]

theorem samePorts_keptByParts : KeptByParts SamePorts where
  refl _ := .of_out rfl
  trans hst htu := ⟨htu.level.trans hst.level, htu.idle.trans hst.idle,
    htu.pending.trans hst.pending, htu.fault.trans hst.fault⟩
  sampleLines _ _ _ := .of_out rfl
  setPulseCount _ _ := .of_out rfl
  slotPush d s := .of_out (slotPush_out s d)
  slotTake s := by constructor <;> simp
  tickPart a _ _ h := by
    obtain ⟨-, -, -, hlevel, hidle, hpending, hfault, -⟩ := sampleTick_frame (sampleTick_of_part a h)
    exact ⟨hlevel, hidle, hpending, hfault⟩

/-- The ports of a cycle are those of its opening, the reset's among them. -/
theorem exec_samePorts (h : exec i s = .next t) : SamePorts (openCycle s) t := by
  by_cases hi : i = .cycReset
  · subst hi
    obtain ⟨-, rfl⟩ := exec_cycReset_next_iff.mp h
    exact .of_out rfl
  · exact samePorts_keptByParts.exec hi h

/-! ### The wire `take_digit` -/

/-- Where nothing has been taken in the cycle, the wire has not changed. -/
def DigitKeptWithoutTake (s t : State) : Prop :=
  t.out.take = false → s.out.take = false ∧ t.out.takeDigit = s.out.takeDigit

theorem DigitKeptWithoutTake.of_out (h : t.out = s.out) : DigitKeptWithoutTake s t := by
  unfold DigitKeptWithoutTake; rw [h]; exact fun ht => ⟨ht, rfl⟩

theorem digitKeptWithoutTake_keptByParts : KeptByParts DigitKeptWithoutTake where
  refl _ := .of_out rfl
  trans hst htu h := by
    obtain ⟨ht, hdigit⟩ := htu h
    exact ⟨(hst ht).1, hdigit.trans (hst ht).2⟩
  sampleLines _ _ _ := .of_out rfl
  setPulseCount _ _ := .of_out rfl
  slotPush d s := .of_out (slotPush_out s d)
  slotTake s h := by simp at h
  tickPart a s t hn := by
    cases a with
    | finish => obtain ⟨-, rfl⟩ := finishTone_next_iff.mp hn; exact fun h => ⟨h, rfl⟩
    | gen => obtain ⟨-, _, _, _, _, rfl⟩ := generate_next_iff.mp hn; exact fun h => ⟨h, rfl⟩
    | start => obtain ⟨-, -, _, _, _, rfl⟩ := startTone_next_iff.mp hn; exact nofun
    | nop => obtain ⟨-, -, rfl⟩ := idleTick_next_iff.mp hn; exact fun h => ⟨h, rfl⟩

/-- The wire shows the digit held in `s`. -/
def ShowsDigitOf (s t : State) : Prop := t.out.takeDigit = s.slot.digit

theorem ShowsDigitOf.of_out (hs : ShowsDigitOf s s) (h : t.out = s.out) : ShowsDigitOf s t :=
  (congrArg Outputs.takeDigit h).trans hs

theorem sampleTick_showsDigit (hs : ShowsDigitOf s s) (h : sampleTick s = .next t) :
    ShowsDigitOf s t := by
  rcases sampleTick_cases h with hp | hp | hp | hp
  · obtain ⟨-, rfl⟩ := finishTone_next_iff.mp hp; exact hs
  · obtain ⟨-, _, _, _, _, rfl⟩ := generate_next_iff.mp hp; exact hs
  · obtain ⟨-, -, _, _, _, rfl⟩ := startTone_next_iff.mp hp; rfl
  · obtain ⟨-, -, rfl⟩ := idleTick_next_iff.mp hp; exact hs

theorem pollPart_out (a : PollPart) (h : pollPart a s = .next t) : t.out = s.out := by
  cases a with
  | restIdle => obtain ⟨-, rfl⟩ := restIdle_next_iff.mp h; rfl
  | restEmit => obtain ⟨d, -, rfl⟩ := restEmit_next_iff.mp h; simp
  | restDiscard => obtain ⟨-, rfl⟩ := restDiscard_next_iff.mp h; rfl
  | moveCount => obtain rfl := moveCount_next_iff.mp h; rfl
  | moveHold => obtain rfl := moveHold_next_iff.mp h; rfl

theorem poll_out {m p : Line} (h : poll m p s = .next t) : t.out = s.out :=
  pollPart_out (s := sampleLines m p s) _ h

/-- Under `SYN_FIRST` a cycle with both ticks shows the digit held, since the take comes first. -/
theorem bothTicks_showsDigit {m p : Line} (ho : s.cfg.coincidentOrder = .synFirst)
    (hs : ShowsDigitOf s s) (h : bothTicks m p s = .next t) : ShowsDigitOf s t := by
  simp only [bothTicks, ho] at h
  obtain ⟨u, hfirst, hsecond⟩ := serially_next_iff.mp h
  unfold ShowsDigitOf
  rw [poll_out hsecond]
  exact sampleTick_showsDigit hs hfirst

theorem slotPushTake_showsDigit (d : Digit) (ho : s.cfg.coincidentOrder = .synFirst) :
    ShowsDigitOf s (slotPushTake d s) := by
  simp [slotPushTake, ho, ShowsDigitOf]

theorem event_showsDigit (ho : s.cfg.coincidentOrder = .synFirst) (hs : ShowsDigitOf s s)
    (h : event i s = .next t) : ShowsDigitOf s t := by
  have hpart (a : PollPart) (hn : pollPart a s = .next t) : ShowsDigitOf s t :=
    hs.of_out (pollPart_out a hn)
  have htick (a : TickPart) (hn : tickPart a s = .next t) : ShowsDigitOf s t :=
    sampleTick_showsDigit hs (sampleTick_of_part a hn)
  cases i with
  | cycReset | cycNop | slotHold | slotHasPending | decSample => cases h; exact hs
  | cycDec | decTick => exact hs.of_out (poll_out h)
  | cycSyn | synTick => exact sampleTick_showsDigit hs h
  | cycBoth => exact bothTicks_showsDigit ho hs h
  | decRestIdle => exact hpart .restIdle h
  | decRestEmit => exact hpart .restEmit h
  | decRestDiscard => exact hpart .restDiscard h
  | decMoveCount => exact hpart .moveCount h
  | decMoveHold => exact hpart .moveHold h
  | synFinish => exact htick .finish h
  | synGen => exact htick .gen h
  | synStart => exact htick .start h
  | synNop => exact htick .nop h
  | slotPush d => cases h; exact hs.of_out (slotPush_out s d)
  | slotTake => cases h; simp [ShowsDigitOf]
  | slotPushTake d => cases h; exact slotPushTake_showsDigit d ho

/-- The wire shows the digit held in the cycle, but where a take under `DEC_FIRST` may show another. -/
theorem exec_showsDigit (h : exec i s = .next t)
    (hcase : t.out.take = false ∨ s.cfg.coincidentOrder = .synFirst) : ShowsDigitOf s t := by
  rcases hcase with hidle | ho
  · by_cases hi : i = .cycReset
    · subst hi
      obtain ⟨-, rfl⟩ := exec_cycReset_next_iff.mp h
      rfl
    · exact (digitKeptWithoutTake_keptByParts.exec hi h hidle).2
  · exact event_showsDigit (s := openCycle s) ho rfl (exec_next_iff_event.mp h).2

/-- Settles O53: the ports and the wire are recorded as the cycle opens, and the events keep them. -/
theorem portsShowTheStateOfTheCycle : Obligations.PortsShowTheStateOfTheCycle := by
  intro i s t h
  obtain ⟨hlevel, hidle, hpending, hfault⟩ := exec_samePorts h
  exact ⟨hlevel, hidle, hpending, hfault, decide_eq_true_iff, rfl, exec_showsDigit h⟩

end Sys2Proof.Machine
end

section
/-! SUPPORT. The slot taken alone (40_slot.md R131 to R136): the whole next state of a push, of a take
and of both in one cycle. -/

namespace Sys2Proof.Machine

variable {s : State} {d : Digit}

/-! ### The two events as whole states -/

/-- R132 for a decimal digit, the whole state. -/
theorem slotPush_eq_of_decimal (h : d.toNat ≤ 9) :
    slotPush d s = { s with slot := { s.slot with valid := true, digit := d } } := by
  simp [slotPush, isDecimal, h]

/-- R132 for a code that is no decimal digit, the whole state. -/
theorem slotPush_eq_of_reserved (h : ¬ d.toNat ≤ 9) : slotPush d s = raiseFault .badDigit s := by
  simp [slotPush, isDecimal, h]

/-- The fault bits after a take (R133). -/
def faultAfterTake (r : SlotRegs) : FaultBits :=
  if r.valid then r.fault else r.fault ||| FaultCode.emptyTake.bit

theorem faultAfterTake_pending {r : SlotRegs} (h : r.valid = true) :
    faultAfterTake r = r.fault := by
  simp [faultAfterTake, h]

theorem faultAfterTake_empty {r : SlotRegs} (h : r.valid = false) :
    faultAfterTake r = r.fault ||| FaultCode.emptyTake.bit := by
  simp [faultAfterTake, h]

/-- R133, the whole state. -/
theorem slotTake_eq (s : State) : slotTake s =
    { s with slot := { valid := false, digit := emptyDigit, fault := faultAfterTake s.slot },
             out := { s.out with take := true, takeDigit := s.slot.digit } } := by
  unfold slotTake faultIfEmpty faultAfterTake
  split <;> rfl

theorem faultSet_of_raised {k : FaultCode} {f : FaultBits} (h : s.slot.fault = f ||| k.bit) :
    s.faultSet k = true := by
  have hbit : ∀ f : FaultBits, ((f ||| k.bit) &&& k.bit != 0#2) = true := by
    cases k <;> decide
  rw [State.faultSet, h, hbit]

/-! ### The slot operations as whole cycles -/

theorem exec_slotTake (hadm : s.cfg.admitted = true) : exec .slotTake s = .next
    { s with slot := { valid := false, digit := emptyDigit, fault := faultAfterTake s.slot },
             out := portsShown s false (some s.slot.digit) } :=
  exec_slotTake_next_iff.mpr ⟨hadm, slotTake_eq _⟩

/-- Settles O18, by cases on whether the pushed code is a digit. -/
theorem slotPushStoresOrRaises : Obligations.SlotPushStoresOrRaises := by
  refine ⟨decodeSlotCommand_slotCommandWord true false, fun s d hadm => ⟨fun hd => ?_, fun hd => ?_⟩⟩
  · exact exec_slotPush_next_iff.mpr ⟨hadm, slotPush_eq_of_decimal hd⟩
  · exact exec_slotPush_next_iff.mpr ⟨hadm, slotPush_eq_of_reserved (by omega)⟩

/-- Settles O19, by cases on whether the slot holds a digit. -/
theorem slotTakeReturnsAndEmpties : Obligations.SlotTakeReturnsAndEmpties := by
  refine ⟨decodeSlotCommand_slotCommandWord false true, fun s hadm => ⟨fun hv => ?_, fun hv => ?_⟩⟩
  · rw [exec_slotTake hadm, faultAfterTake_pending hv]; rfl
  · rw [exec_slotTake hadm, faultAfterTake_empty hv]; rfl

/-! ### A push and a take in one cycle -/

theorem exec_slotPushTake_synFirst (hadm : s.cfg.admitted = true)
    (ho : s.cfg.coincidentOrder = .synFirst) :
    exec (.slotPushTake d) s = .next (slotPush d (slotTake (openCycle s))) :=
  exec_slotPushTake_next_iff.mpr ⟨hadm, by simp [slotPushTake, ho]⟩

theorem exec_slotPushTake_decFirst (hadm : s.cfg.admitted = true)
    (ho : s.cfg.coincidentOrder = .decFirst) :
    exec (.slotPushTake d) s = .next (slotTake (slotPush d (openCycle s))) :=
  exec_slotPushTake_next_iff.mpr ⟨hadm, by simp [slotPushTake, ho]⟩

/-- Settles O20: in either order the second event acts on the whole state the first one leaves. -/
theorem slotPushTakeIsSerial : Obligations.SlotPushTakeIsSerial := by
  refine ⟨decodeSlotCommand_slotCommandWord true true, fun s d hadm => ⟨fun ho => ?_, fun ho => ?_⟩⟩
  · rw [exec_slotPushTake_synFirst hadm ho, slotTake_eq]
    by_cases hd : d.toNat ≤ 9
    · rw [slotPush_eq_of_decimal hd, if_pos hd]; rfl
    · rw [slotPush_eq_of_reserved hd, if_neg hd]; rfl
  · rw [exec_slotPushTake_decFirst hadm ho, slotTake_eq]
    by_cases hd : d.toNat ≤ 9
    · rw [slotPush_eq_of_decimal hd, if_pos hd, if_pos hd]; rfl
    · rw [slotPush_eq_of_reserved hd, if_neg hd, if_neg hd]; rfl

/-! ### Pushes and takes in a row -/

theorem exec_slotPush_decimal_completes (hadm : s.cfg.admitted = true) (hd : d.toNat ≤ 9) :
    ∃ t, exec (.slotPush d) s = .next t ∧ t.cfg.admitted = true ∧
      t.slot = { valid := true, digit := d, fault := s.slot.fault } :=
  ⟨_, exec_slotPush_next_iff.mpr ⟨hadm, slotPush_eq_of_decimal hd⟩, hadm, rfl⟩

theorem exec_slotTake_completes (hadm : s.cfg.admitted = true) :
    ∃ t, exec .slotTake s = .next t ∧ t.cfg.admitted = true ∧ t.out.taken = some s.slot.digit ∧
      t.slot = { valid := false, digit := emptyDigit, fault := faultAfterTake s.slot } :=
  ⟨_, exec_slotTake hadm, hadm, rfl, rfl⟩

/-- Settles O21: the second push alone decides what the slot holds, so the first take empties it and
the second finds it empty. -/
theorem secondPushOverwritesTheFirst : Obligations.SecondPushOverwritesTheFirst := by
  intro s d e hadm hd he
  obtain ⟨a, hpushD, hadmA, hslotA⟩ := exec_slotPush_decimal_completes hadm hd
  obtain ⟨b, hpushE, hadmB, hslotB⟩ := exec_slotPush_decimal_completes hadmA he
  obtain ⟨c, htake, hadmC, htakenC, hslotC⟩ := exec_slotTake_completes hadmB
  obtain ⟨f, htakeAgain, -, htakenF, hslotF⟩ := exec_slotTake_completes hadmC
  rw [hslotA] at hslotB
  rw [hslotB] at htakenC hslotC
  rw [hslotC, faultAfterTake_empty rfl] at hslotF
  rw [hslotC] at htakenF
  rw [faultAfterTake_pending rfl] at hslotC
  exact ⟨a, b, c, f, hpushD, hpushE, htake, htakeAgain, hslotB, htakenC, hslotC, htakenF,
    faultSet_of_raised (congrArg SlotRegs.fault hslotF)⟩

end Sys2Proof.Machine
end

section
/-! SUPPORT. The decoder (41_decoder.md R150 to R158): the whole next state of a poll and of each of its
parts performed on its own, and the rotation whose poll at rest pushes the digit. -/

namespace Sys2Proof.Machine

variable {s t u : State} {m p : Line} {n : BitVec 4}

/-! ### The digit and the successor of a count -/

/-- R65 on the valid counts: the count's digit, 0 for 10. -/
theorem romPc2Digit_of_valid (h : 1 ≤ n.toNat ∧ n.toNat ≤ 10) :
    romPc2Digit n = some (if n = 10#4 then 0#4 else n) := by
  rw [pulseCountTable n]
  by_cases hten : n = 10#4
  · rw [if_pos hten, if_pos hten]
  · have hne : n.toNat ≠ 10 := fun hn => hten (BitVec.eq_of_toNat_eq hn)
    rw [if_neg hten, if_neg hten, if_pos (by omega)]

theorem romPc2Digit_of_invalid (h : ¬ (1 ≤ n.toNat ∧ n.toNat ≤ 10)) : romPc2Digit n = none := by
  rw [← Option.not_isSome_iff_eq_none, romPc2Digit_isSome_iff]
  simpa [countIsValid] using h

/-- The saturating increment stays at 15 and is the successor below it. -/
theorem countUp_eq_ite (n : BitVec 4) : countUp n = if n = 15#4 then 15#4 else n + 1#4 := by
  by_cases h : n = 15#4
  · subst h; rfl
  · have hlt := n.isLt
    have hne : n.toNat ≠ 15 := fun hn => h (BitVec.eq_of_toNat_eq hn)
    rw [if_neg h]
    apply BitVec.eq_of_toNat_eq
    rw [countUp_toNat, BitVec.toNat_add, BitVec.toNat_ofNat]
    omega

/-! ### One poll -/

theorem slotAfterPoll_eq_ite (m : Line) (s : State) : slotAfterPoll m s =
    if m = true ∧ 1 ≤ s.dec.pulseCount.toNat ∧ s.dec.pulseCount.toNat ≤ 10 then
      { valid := true
        digit := if s.dec.pulseCount = 10#4 then 0#4 else s.dec.pulseCount
        fault := s.slot.fault }
    else s.slot := by
  cases m with
  | false => rfl
  | true =>
    by_cases hvalid : 1 ≤ s.dec.pulseCount.toNat ∧ s.dec.pulseCount.toNat ≤ 10
    · simp [slotAfterPoll, romPc2Digit_of_valid hvalid, hvalid]
    · simp [slotAfterPoll, romPc2Digit_of_invalid hvalid, hvalid]

theorem countAfterPoll_eq_ite (m p : Line) (s : State) : countAfterPoll m p s =
    if m = true then 0#4
    else if s.dec.pulseSignal = false ∧ p = true then
      BitVec.ofNat 4 (min (s.dec.pulseCount.toNat + 1) 15)
    else s.dec.pulseCount := by
  simp only [countAfterPoll, rising, countUp, Bool.and_eq_true, Bool.not_eq_true']

/-- A poll at rest with nothing counted keeps the slot. -/
theorem slotAfterPoll_of_count_zero (m : Line) (h0 : s.dec.pulseCount = 0#4) :
    slotAfterPoll m s = s.slot := by
  rw [slotAfterPoll_eq_ite, if_neg (by simp [h0])]

theorem exec_decTick (hadm : s.cfg.admitted = true) :
    exec (.decTick m p) s = .next (afterPoll m p (openCycle s)) := by
  rw [exec_of_admitted hadm]
  exact poll_eq_afterPoll m p (openCycle s)

/-- `CYC.DEC` is the poll alone. -/
theorem exec_cycDec_eq_decTick (m p : Line) (s : State) :
    exec (.cycDec m p) s = exec (.decTick m p) s := rfl

/-- A cycle with both ticks leaves the decoder as the poll alone leaves it. -/
theorem exec_cycBoth_dec (ht : exec (.decTick m p) s = .next t)
    (hu : exec (.cycBoth m p) s = .next u) : u.dec = t.dec := by
  have hdec := exec_command_dec (w := commandWord false true false m p) (s := s) (t := t)
    (by rw [decodeCommand_commandWord]; exact ht)
  have hboth := exec_command_dec (w := commandWord false true true m p) (s := s) (t := u)
    (by rw [decodeCommand_commandWord]; exact hu)
  simp only [rstBit_commandWord, tickLoBit_commandWord, movingBit_commandWord,
    pulseBit_commandWord] at hdec hboth
  exact hboth.trans hdec.symm

/-- Settles O27: a poll at rest with count 0 pushes nothing, and `runOn_rotation` is the run. -/
theorem rotationPushesItsDigit : Obligations.RotationPushesItsDigit := by
  refine ⟨fun s q hadm h0 => ?_, fun s samples q hadm hb h0 => runOn_rotation hadm hb h0 samples q⟩
  refine exec_cycDec_next_iff.mpr ⟨hadm, ?_⟩
  have hslot : slotAfterPoll true (openCycle s) = s.slot := slotAfterPoll_of_count_zero true h0
  rw [afterPoll, hslot]
  rfl

/-- Settles O23: a poll reads the opened cycle's registers, which are the old ones. -/
theorem decTickIsOnePoll : Obligations.DecTickIsOnePoll := by
  refine ⟨fun m p => ⟨?_, ?_⟩, fun s t u m p ht => ⟨?_, fun hu => exec_cycBoth_dec ht hu⟩,
    fun s m p hadm => ?_⟩
  · exact decodeCommand_commandWord false true false m p
  · exact decodeCommand_commandWord false true true m p
  · exact (exec_cycDec_eq_decTick m p s).trans ht
  · rw [exec_decTick hadm, afterPoll, slotAfterPoll_eq_ite, countAfterPoll_eq_ite]
    rfl

/-! ### The parts on their own -/

/-- Settles O22: sampling in the opened cycle, whose lines are the old ones. -/
theorem decSampleRecordsTheLines : Obligations.DecSampleRecordsTheLines :=
  fun _ _ _ hadm => exec_of_admitted hadm

/-- Settles O24: the digit of a valid count is decimal, so the push stores it. -/
theorem decRestEmitPushesTheDigit : Obligations.DecRestEmitPushesTheDigit := by
  intro s hadm hlow hhigh
  have hdigit := romPc2Digit_of_valid ⟨hlow, hhigh⟩
  rw [exec_of_admitted hadm]
  refine restEmit_next_iff.mpr ⟨_, hdigit, ?_⟩
  rw [slotPush_eq_of_decimal (romPc2Digit_decimal _ _ hdigit)]
  rfl

/-- Settles O25: the class of the count selects the part, which pushes nothing. -/
theorem decRestDiscardAndRestIdle : Obligations.DecRestDiscardAndRestIdle := by
  intro s hadm
  rw [exec_of_admitted hadm, exec_of_admitted hadm]
  refine ⟨fun hexcess => ?_, fun hzero => ?_⟩
  · exact restDiscard_next_iff.mpr ⟨hexcess, rfl⟩
  · exact restIdle_next_iff.mpr ⟨congrArg BitVec.toNat hzero, rfl⟩

/-- Settles O26: the count's increment is `countUp_eq_ite`. -/
theorem decMoveCountAndMoveHold : Obligations.DecMoveCountAndMoveHold := by
  intro s hadm
  rw [exec_of_admitted hadm, exec_of_admitted hadm]
  refine ⟨moveCount_next_iff.mpr ?_, moveHold_next_iff.mpr rfl⟩
  rw [countUp_eq_ite]
  rfl

end Sys2Proof.Machine
end

section
/-! SUPPORT. The synthesizer (42_synth.md R180 to R190): the whole next state of each part of a sample
tick, the tick as the part its old state selects, the counter's transitions, and the two adders. -/

namespace Sys2Proof.Machine

variable {s t u v : State} {e : TonePair} {i : Instr}

/-! ### The parts of a sample tick as whole cycles -/

/-- The state after `SYN.FINISH` (R182). -/
def afterFinish (s : State) : State :=
  { s with syn := { s.syn with remainingCycles := -1, level := s.cfg.silenceLevel },
           out := portsShown s true none }

@[simp] theorem afterFinish_level (s : State) :
    (afterFinish s).syn.level = s.cfg.silenceLevel := rfl
@[simp] theorem afterFinish_levelWr (s : State) : (afterFinish s).out.levelWr = true := rfl

/-- The sample of the present phases (R183). -/
def currentSample (s : State) : Nat :=
  mean (s.cfg.sine.getD s.syn.highPhase 0) (s.cfg.sine.getD s.syn.lowPhase 0)

/-- The state after `SYN.GEN` (R183). -/
def afterGenerate (s : State) : State :=
  { s with
    syn := { s.syn with
      remainingCycles := s.syn.remainingCycles - 1
      highPhase := advance s.cfg s.syn.highPhase s.syn.highStep
      lowPhase := advance s.cfg s.syn.lowPhase s.syn.lowStep
      level := currentSample s }
    out := portsShown s true none }

/-- The state after `SYN.START` of a digit with the frequencies `e` (R186). -/
def afterStart (e : TonePair) (s : State) : State :=
  { s with
    slot := { s.slot with valid := false, digit := emptyDigit }
    syn := { s.syn with
      remainingCycles := s.cfg.toneTicks
      highPhase := 0
      lowPhase := 0
      highStep := s.cfg.phaseStep e.high
      lowStep := s.cfg.phaseStep e.low }
    out := portsShown s false (some s.slot.digit) }

theorem exec_synFinish (hadm : s.cfg.admitted = true) (h0 : s.syn.remainingCycles = 0) :
    exec .synFinish s = .next (afterFinish s) := by
  rw [exec_of_admitted hadm]
  exact finishTone_next_iff.mpr ⟨h0, rfl⟩

theorem exec_synGen (hadm : s.cfg.admitted = true) (hpos : 0 < s.syn.remainingCycles)
    (hhigh : s.syn.highPhase < s.cfg.tableLen) (hlow : s.syn.lowPhase < s.cfg.tableLen) :
    exec .synGen s = .next (afterGenerate s) := by
  rw [exec_of_admitted hadm]
  exact generate_next_iff.mpr
    ⟨hpos, _, _, romSine_of_lt _ _ hadm hhigh, romSine_of_lt _ _ hadm hlow, rfl⟩

theorem exec_synStart (hadm : s.cfg.admitted = true) (hneg : s.syn.remainingCycles < 0)
    (hv : s.slot.valid = true) (he : s.cfg.digitFreq[s.slot.digit.toNat]? = some e) :
    exec .synStart s = .next (afterStart e s) := by
  rw [exec_of_admitted hadm]
  exact startTone_next_iff.mpr ⟨hneg, hv, _, _, stepPair_of_entry _ _ he, rfl⟩

theorem exec_synNop (hadm : s.cfg.admitted = true) (hneg : s.syn.remainingCycles < 0)
    (hv : s.slot.valid = false) : exec .synNop s = .next (openCycle s) := by
  rw [exec_of_admitted hadm]
  exact idleTick_next_iff.mpr ⟨hneg, hv, rfl⟩

/-- Settles O31: the counter 0 selects the part. -/
theorem synFinishSilences : Obligations.SynFinishSilences :=
  fun _ hadm h0 => exec_synFinish hadm h0

/-- Settles O32: an in-range table read answers its entry. -/
theorem synGenWritesOneSample : Obligations.SynGenWritesOneSample :=
  fun s hadm hpos hhigh hlow => ⟨_, _, romSine_of_lt s.cfg _ hadm hhigh,
    romSine_of_lt s.cfg _ hadm hlow, exec_synGen hadm hpos hhigh hlow⟩

/-- Settles O33: a decimal digit has an entry in the digit table. -/
theorem synStartLoadsTheTone : Obligations.SynStartLoadsTheTone := by
  intro s hadm hneg hv hd
  obtain ⟨e, he⟩ := digitFreq_entry s.cfg hadm hd
  exact ⟨e, he, exec_synStart hadm hneg hv he⟩

/-- Settles O34: an idle tick with an empty slot only opens its cycle. -/
theorem synNopKeepsEveryRegister : Obligations.SynNopKeepsEveryRegister :=
  fun _ hadm hneg hv => exec_synNop hadm hneg hv

/-! ### The sample tick as its selected part -/

theorem exec_synTick_eq_part (hadm : s.cfg.admitted = true) : exec .synTick s =
    exec (tickInstr (selectTick s.syn.remainingCycles s.slot.valid)) s := by
  rw [exec_of_admitted hadm, exec_of_admitted hadm, event_tickInstr]
  rfl

theorem exec_synTick_eq_synFinish (hadm : s.cfg.admitted = true)
    (h0 : s.syn.remainingCycles = 0) : exec .synTick s = exec .synFinish s := by
  rw [exec_synTick_eq_part hadm, selectTick_finish h0]; rfl

theorem exec_synTick_eq_synGen (hadm : s.cfg.admitted = true)
    (hpos : 0 < s.syn.remainingCycles) : exec .synTick s = exec .synGen s := by
  rw [exec_synTick_eq_part hadm, selectTick_gen hpos]; rfl

theorem exec_synTick_eq_synStart (hadm : s.cfg.admitted = true)
    (hneg : s.syn.remainingCycles < 0) (hv : s.slot.valid = true) :
    exec .synTick s = exec .synStart s := by
  rw [exec_synTick_eq_part hadm, selectTick_idle hneg, hv]; rfl

theorem exec_synTick_eq_synNop (hadm : s.cfg.admitted = true)
    (hneg : s.syn.remainingCycles < 0) (hv : s.slot.valid = false) :
    exec .synTick s = exec .synNop s := by
  rw [exec_synTick_eq_part hadm, selectTick_idle hneg, hv]; rfl

/-- Settles O30, by the class of `remainingCycles` that selects the part. -/
theorem synTickPerformsTheSelectedPart : Obligations.SynTickPerformsTheSelectedPart :=
  fun _ hadm => ⟨exec_synTick_eq_synFinish hadm, exec_synTick_eq_synGen hadm,
    exec_synTick_eq_synStart hadm, exec_synTick_eq_synNop hadm⟩

/-- `CYC.SYN` is the sample tick alone. -/
theorem exec_cycSyn_eq_synTick (s : State) : exec .cycSyn s = exec .synTick s := rfl

/-- Where the sample tick of a cycle with both ticks comes first, the poll after it leaves the
synthesizer and the outputs as the tick alone leaves them. -/
theorem exec_cycBoth_synFirst {m p : Line} (ho : s.cfg.coincidentOrder = .synFirst)
    (ht : exec .synTick s = .next t) (hu : exec (.cycBoth m p) s = .next u) :
    u = afterPoll m p t := by
  obtain ⟨-, ⟨-, v, hv, rfl⟩ | ⟨hdec, -⟩⟩ := exec_cycBoth_next_iff.mp hu
  · have hvt : Host.Outcome.next v = .next t := hv.symm.trans (exec_next_iff_event.mp ht).2
    cases hvt; rfl
  · rw [ho] at hdec; cases hdec

/-- Settles O29: the part is selected by the class of `remainingCycles`, and each part's whole next
state is known. -/
theorem synTickIsOneSampleTick : Obligations.SynTickIsOneSampleTick := by
  refine ⟨fun m p => ⟨?_, ?_⟩, fun s t u m p ht => ⟨?_, fun ho hu => ?_⟩,
    fun s hadm => ⟨?_, ?_, ?_, ?_⟩⟩
  · exact decodeCommand_commandWord false false true m p
  · exact decodeCommand_commandWord false true true m p
  · exact (exec_cycSyn_eq_synTick s).trans ht
  · rw [exec_cycBoth_synFirst ho ht hu]; exact ⟨rfl, rfl⟩
  · exact fun h0 => (exec_synTick_eq_synFinish hadm h0).trans (exec_synFinish hadm h0)
  · intro hpos
    rw [exec_synTick_eq_synGen hadm hpos]
    exact synGenWritesOneSample s hadm hpos
  · intro hneg hv
    rw [exec_synTick_eq_synStart hadm hneg hv]
    exact synStartLoadsTheTone s hadm hneg hv
  · exact fun hneg hv => (exec_synTick_eq_synNop hadm hneg hv).trans (exec_synNop hadm hneg hv)

/-! ### The counter's transitions (R181) -/

/-- The counter after a sample tick, by its old value and the slot. -/
theorem sampleTick_remainingCycles (h : sampleTick s = .next t) : t.syn.remainingCycles =
    if s.syn.remainingCycles = 0 then -1
    else if 0 < s.syn.remainingCycles then s.syn.remainingCycles - 1
    else if s.slot.valid then s.cfg.toneTicks else s.syn.remainingCycles := by
  rcases sampleTick_cases h with hp | hp | hp | hp
  · obtain ⟨h0, rfl⟩ := finishTone_next_iff.mp hp; simp [h0]
  · obtain ⟨hpos, _, _, _, _, rfl⟩ := generate_next_iff.mp hp; simp [hpos, hpos.ne']
  · obtain ⟨hneg, hv, _, _, _, rfl⟩ := startTone_next_iff.mp hp; simp [hneg.ne, hneg.not_gt, hv]
  · obtain ⟨hneg, hv, rfl⟩ := idleTick_next_iff.mp hp; simp [hneg.ne, hneg.not_gt, hv]

/-- The events of the synthesizer's rows are sample ticks. -/
theorem event_syn_sampleTick (hf : i.family = .syn) (h : event i s = .next t) :
    sampleTick s = .next t := by
  cases i with
  | synTick => exact h
  | synFinish => exact sampleTick_of_part .finish h
  | synGen => exact sampleTick_of_part .gen h
  | synStart => exact sampleTick_of_part .start h
  | synNop => exact sampleTick_of_part .nop h
  | _ => cases hf

/-- The synthesizer's registers of `s` move to those of `t` by one sample tick. -/
def MovesByTick (s t : State) : Prop :=
  ∃ u v, u.syn = s.syn ∧ sampleTick u = .next v ∧ t.syn = v.syn

theorem poll_syn {m p : Line} (h : poll m p s = .next t) : t.syn = s.syn := by
  obtain rfl : afterPoll m p s = t := by simpa [poll_eq_afterPoll] using h
  rfl

theorem bothTicks_movesByTick {m p : Line} (h : bothTicks m p s = .next t) : MovesByTick s t := by
  unfold bothTicks at h
  split at h <;> obtain ⟨u, hfirst, hsecond⟩ := serially_next_iff.mp h
  · exact ⟨s, u, rfl, hfirst, poll_syn hsecond⟩
  · exact ⟨u, t, poll_syn hfirst, hsecond, rfl⟩

/-- No event but the reset moves the synthesizer otherwise than by one sample tick. -/
theorem event_syn_cases (hi : i ≠ .cycReset) (h : event i s = .next t) :
    t.syn = s.syn ∨ MovesByTick s t := by
  cases hf : i.family with
  | dec => exact .inl (event_decoderWrites hf h).1
  | slot => exact .inl (event_slot_frame hf h).2
  | syn => exact .inr ⟨s, t, rfl, event_syn_sampleTick hf h, rfl⟩
  | cyc =>
    cases i with
    | cycReset => exact absurd rfl hi
    | cycNop => cases h; exact .inl rfl
    | cycDec => exact .inl (poll_syn h)
    | cycSyn => exact .inr ⟨s, t, rfl, h, rfl⟩
    | cycBoth => exact .inr (bothTicks_movesByTick h)
    | _ => cases hf

/-- A tone in progress is left by no operation but the reset. -/
theorem exec_remainingCycles_of_pos (hi : i ≠ .cycReset) (h : exec i s = .next t)
    (hpos : 0 < s.syn.remainingCycles) : t.syn.remainingCycles = s.syn.remainingCycles ∨
      t.syn.remainingCycles = s.syn.remainingCycles - 1 := by
  rcases event_syn_cases hi (exec_next_iff_event.mp h).2 with hsyn | ⟨u, v, hu, htick, hv⟩
  · exact .inl (by rw [hsyn, openCycle_syn])
  · right
    rw [hv, sampleTick_remainingCycles htick, hu, openCycle_syn, if_neg hpos.ne', if_pos hpos]

/-- A cycle with neither reset nor sample tick keeps the synthesizer's registers. -/
theorem exec_command_syn_of_no_tick {w : CommandWord} (hr : rstBit w = false)
    (hhi : tickHiBit w = false) (h : exec (decodeCommand w) s = .next t) : t.syn = s.syn := by
  rcases decodeCommand_bits w with ⟨hr', -⟩ | ⟨-, -, -, hw⟩ | ⟨-, -, -, hw⟩ | ⟨-, -, hhi', -⟩ |
    ⟨-, -, hhi', -⟩
  · simp [hr] at hr'
  · obtain ⟨-, rfl⟩ := exec_cycNop_next_iff.mp (hw ▸ h); rfl
  · obtain ⟨-, rfl⟩ := exec_cycDec_next_iff.mp (hw ▸ h); rfl
  · simp [hhi] at hhi'
  · simp [hhi] at hhi'

theorem exec_synTick_remainingCycles (h : exec .synTick s = .next t) : t.syn.remainingCycles =
    if s.syn.remainingCycles = 0 then -1
    else if 0 < s.syn.remainingCycles then s.syn.remainingCycles - 1
    else if s.slot.valid then s.cfg.toneTicks else s.syn.remainingCycles :=
  sampleTick_remainingCycles (s := openCycle s) (exec_next_iff_event.mp h).2

/-- Settles O35: the tick's transitions are its counter's equation, by the class of the old value. -/
theorem toneControlTransitions : Obligations.ToneControlTransitions := by
  refine ⟨fun s t h => ?_, fun i s t hi h => exec_remainingCycles_of_pos hi h,
    fun w s t hr hhi h => by rw [exec_command_syn_of_no_tick hr hhi h]⟩
  rw [exec_synTick_remainingCycles h]
  refine ⟨fun hneg hv => ?_, fun hneg hv => ?_, fun hpos => ?_, fun h0 => ?_⟩
  · simp [hneg.ne, hneg.not_gt, hv]
  · simp [hneg.ne, hneg.not_gt, hv]
  · rw [if_neg hpos.ne', if_pos hpos]
  · rw [if_pos h0]

/-! ### The slot during a tone (R190) -/

/-- The state with other slot contents. -/
def withSlot (r : SlotRegs) (s : State) : State := { s with slot := r }

/-- During a tone a sample tick neither reads nor writes the slot. -/
theorem sampleTick_withSlot (r : SlotRegs) (h0 : 0 ≤ s.syn.remainingCycles)
    (h : sampleTick s = .next t) :
    sampleTick (withSlot r s) = .next (withSlot r t) ∧ t.slot = s.slot := by
  rcases sampleTick_cases h with hp | hp | hp | hp
  · obtain ⟨hz, rfl⟩ := finishTone_next_iff.mp hp
    exact ⟨sampleTick_of_part .finish (finishTone_next_iff.mpr ⟨hz, rfl⟩), rfl⟩
  · obtain ⟨hpos, a, b, ha, hb, rfl⟩ := generate_next_iff.mp hp
    exact ⟨sampleTick_of_part .gen (generate_next_iff.mpr ⟨hpos, a, b, ha, hb, rfl⟩), rfl⟩
  · exact absurd (startTone_next_iff.mp hp).1 h0.not_gt
  · exact absurd (idleTick_next_iff.mp hp).1 h0.not_gt

/-- Settles O36: the two opened cycles differ in the slot and in recorded outputs, and the tick reads
neither. -/
theorem digitPushedDuringAToneWaits : Obligations.DigitPushedDuringAToneWaits := by
  intro s t r h0 h
  obtain ⟨hadm, htick⟩ := exec_next_iff_event.mp h
  obtain ⟨hother, hslot⟩ := sampleTick_withSlot r (s := openCycle s) h0 htick
  obtain ⟨o, ho⟩ := sampleTick_withOut (openCycle (withSlot r s)).out hother
  have hwr : o.levelWr = true ↔ t.out.levelWr = true :=
    (sampleTick_levelWr ho).trans (sampleTick_levelWr htick).symm
  exact ⟨withOut o (withSlot r t), exec_next_iff_event.mpr ⟨hadm, ho⟩, rfl, hslot, rfl,
    Bool.eq_iff_iff.mpr hwr⟩

/-! ### The adders (R184, R185) -/

/-- The scaling adder as hardware: one more bit for the sum, then the shift. -/
theorem mean_eq_shifted_sum {a b w : Nat} (ha : a < 2 ^ w) (hb : b < 2 ^ w) :
    mean a b = ((BitVec.ofNat (w + 1) a + BitVec.ofNat (w + 1) b) >>> 1).toNat := by
  have hsum : a + b < 2 ^ (w + 1) := by rw [pow_succ]; omega
  rw [← BitVec.ofNat_add, BitVec.toNat_ushiftRight, BitVec.toNat_ofNat, Nat.mod_eq_of_lt hsum,
    Nat.shiftRight_eq_div_pow]
  rfl

/-- One conditional subtraction is the remainder, since the sum is below twice the table length. -/
theorem advance_eq_mod {c : Config} {ph st : Nat} (hph : ph < c.tableLen) (hst : st < c.tableLen) :
    advance c ph st = (ph + st) % c.tableLen := by
  unfold advance
  split
  · rw [Nat.mod_eq_sub_mod (by omega), Nat.mod_eq_of_lt (by omega)]
  · rw [Nat.mod_eq_of_lt (by omega)]

/-- The phase adder needs one bit more than a phase. -/
theorem phase_sum_lt {c : Config} {ph st : Nat} (hadm : c.admitted = true) (hph : ph < c.tableLen)
    (hst : st < c.tableLen) : ph + st < 2 ^ (c.phw + 1) := by
  have hlen : c.tableLen ≤ 2 ^ c.phw := (Config.phw_le_iff hadm).mp le_rfl
  rw [pow_succ]; omega

/-- Settles O37: at `PHW` bits the carry dropped is the multiple of `2^PHW = TABLE_LEN` taken off. -/
theorem addersAreExactAtTheirWidths : Obligations.AddersAreExactAtTheirWidths := by
  refine ⟨fun a b w ha hb => ⟨rfl, mean_eq_shifted_sum ha hb⟩, fun c a b ha hb => mean_le ha hb,
    fun c ph st hadm hph hst => ⟨rfl, phase_sum_lt hadm hph hst, advance_lt hph hst,
      advance_eq_mod hph hst, fun hlen => ?_⟩⟩
  rw [advance_eq_mod hph hst, ← BitVec.ofNat_add, BitVec.toNat_ofNat, hlen]

end Sys2Proof.Machine
end

section
/-! SUPPORT. A tone from its start to its silence (42_synth.md R188, R189): the state in closed form
after every number of ticks, and the levels that the whole tone writes. -/

namespace Sys2Proof.Machine

variable {s t u : State} {e : TonePair} {k n : Nat} {w : CommandWord} {ws : List CommandWord}

/-! ### A tick of a run -/

/-- The command word of `cmdS`. -/
abbrev sampleWord : CommandWord := commandWord false false true false false

theorem perform_sampleWord (hb : s.begun = true) :
    perform (decodeCommand sampleWord) s = exec .synTick s := by
  rw [decodeCommand_commandWord, perform_of_begun hb]; rfl

theorem runOn_toneCmd_succ (h : runOn (toneCmd k) s = .next t) (hb : t.begun = true)
    (htick : exec .synTick t = .next u) : runOn (toneCmd (k + 1)) s = .next u := by
  have hports : ∀ x ∈ toneCmd k, ∃ cw, x = InputWord.ports cw :=
    fun x hx => ⟨sampleWord, List.eq_of_mem_replicate hx⟩
  calc runOn (toneCmd (k + 1)) s
      = runOn (toneCmd k ++ [cmdS]) s := by rw [toneCmd, List.replicate_succ']; rfl
    _ = runOn [cmdS] t := runOn_append hports h
    _ = runOn [] u := runOn_cons ((perform_sampleWord hb).trans htick)
    _ = .next u := runOn_nil u

/-- A cycle adds its level to the observation of the cycles after it where it drives the strobe. -/
theorem observe_cons {levels : List Nat} (h : perform (decodeCommand w) s = .next t)
    (hrest : observe ws t = some (u, levels)) : observe (w :: ws) s =
      some (u, if t.out.levelWr then t.syn.level :: levels else levels) := by
  simp only [observe, h, hrest]

/-! ### The tone in closed form -/

/-- The `k`-th sample of the tone with the frequencies `e` (R189). -/
def sampleOf (c : Config) (e : TonePair) (k : Nat) : Nat :=
  toneSample c (c.phaseStep e.high) (c.phaseStep e.low) k

/-- `t` is the state `k` ticks after the tick that started, in state `s`, the tone with the
frequencies `e`: R189's closed form. -/
structure InTone (e : TonePair) (k : Nat) (s t : State) : Prop where
  context : SameContext s t
  dec : t.dec = s.dec
  valid : t.slot.valid = false
  digit : t.slot.digit = emptyDigit
  cycles : t.syn.remainingCycles = s.cfg.toneTicks - k
  highStep : t.syn.highStep = s.cfg.phaseStep e.high
  lowStep : t.syn.lowStep = s.cfg.phaseStep e.low
  highPhase : t.syn.highPhase = k * s.cfg.phaseStep e.high % s.cfg.tableLen
  lowPhase : t.syn.lowPhase = k * s.cfg.phaseStep e.low % s.cfg.tableLen
  started : k = 0 → t.syn.level = s.syn.level ∧ t.out.levelWr = false
  sampled : 0 < k → t.out.levelWr = true ∧ t.syn.level = sampleOf s.cfg e (k - 1)

/-- A phase at `k` times its step advances to `k + 1` times. -/
theorem advance_multiple {c : Config} {st : Nat} (hst : st < c.tableLen) :
    advance c (k * st % c.tableLen) st = (k + 1) * st % c.tableLen := by
  rw [advance_eq_mod (Nat.mod_lt _ (Nat.zero_lt_of_lt hst)) hst, Nat.mod_add_mod, Nat.succ_mul]

theorem InTone.start (e : TonePair) (s : State) : InTone e 0 s (afterStart e s) where
  context := ⟨rfl, rfl, rfl⟩
  dec := rfl
  valid := rfl
  digit := rfl
  cycles := by simp [afterStart]
  highStep := rfl
  lowStep := rfl
  highPhase := by simp [afterStart]
  lowPhase := by simp [afterStart]
  started _ := ⟨rfl, rfl⟩
  sampled := nofun

theorem InTone.currentSample (h : InTone e k s t) : currentSample t = sampleOf s.cfg e k := by
  rw [Machine.currentSample, h.highPhase, h.lowPhase, h.context.cfg]
  rfl

/-- A generating tick writes the next sample and keeps the closed form. -/
theorem InTone.generate (h : InTone e k s t) (hhigh : s.cfg.phaseStep e.high < s.cfg.tableLen)
    (hlow : s.cfg.phaseStep e.low < s.cfg.tableLen) : InTone e (k + 1) s (afterGenerate t) where
  context := ⟨h.context.cfg, h.context.trace, h.context.begun⟩
  dec := h.dec
  valid := h.valid
  digit := h.digit
  cycles := by simp only [afterGenerate, h.cycles]; omega
  highStep := h.highStep
  lowStep := h.lowStep
  highPhase := by
    simp only [afterGenerate, h.context.cfg, h.highPhase, h.highStep, advance_multiple hhigh]
  lowPhase := by
    simp only [afterGenerate, h.context.cfg, h.lowPhase, h.lowStep, advance_multiple hlow]
  started := nofun
  sampled _ := ⟨rfl, h.currentSample⟩

/-! ### The tone of an idle synthesizer with a digit pending -/

/-- A begun run stands idle under an admitted configuration, a digit with the frequencies `e`
pending. -/
structure ReadyToSound (e : TonePair) (s : State) : Prop where
  admitted : s.cfg.admitted = true
  begun : s.begun = true
  idle : s.syn.remainingCycles < 0
  pending : s.slot.valid = true
  entry : s.cfg.digitFreq[s.slot.digit.toNat]? = some e

theorem ReadyToSound.exec_start (h : ReadyToSound e s) :
    exec .synTick s = .next (afterStart e s) :=
  (exec_synTick_eq_synStart h.admitted h.idle h.pending).trans
    (exec_synStart h.admitted h.idle h.pending h.entry)

theorem ReadyToSound.steps_lt (h : ReadyToSound e s) :
    s.cfg.phaseStep e.high < s.cfg.tableLen ∧ s.cfg.phaseStep e.low < s.cfg.tableLen :=
  phaseStep_lt s.cfg e h.admitted (List.mem_of_getElem? h.entry)

theorem InTone.begun (h : InTone e k s t) (hs : ReadyToSound e s) : t.begun = true :=
  h.context.begun.trans hs.begun

theorem InTone.admitted (h : InTone e k s t) (hs : ReadyToSound e s) : t.cfg.admitted = true :=
  h.context.cfg ▸ hs.admitted

/-- Before the last sample the next tick generates. -/
theorem InTone.exec_generate (h : InTone e k s t) (hs : ReadyToSound e s)
    (hk : k < s.cfg.toneTicks) :
    exec .synTick t = .next (afterGenerate t) ∧ InTone e (k + 1) s (afterGenerate t) := by
  obtain ⟨hhigh, hlow⟩ := hs.steps_lt
  have hlen : 0 < s.cfg.tableLen := Nat.zero_lt_of_lt hhigh
  have hadm : t.cfg.admitted = true := h.admitted hs
  have hpos : 0 < t.syn.remainingCycles := by rw [h.cycles]; omega
  refine ⟨(exec_synTick_eq_synGen hadm hpos).trans (exec_synGen hadm hpos ?_ ?_),
    h.generate hhigh hlow⟩
  · rw [h.highPhase, h.context.cfg]; exact Nat.mod_lt _ hlen
  · rw [h.lowPhase, h.context.cfg]; exact Nat.mod_lt _ hlen

/-- The tick after the last sample silences the output. -/
theorem InTone.exec_finish (h : InTone e s.cfg.toneTicks s t) (hs : ReadyToSound e s) :
    exec .synTick t = .next (afterFinish t) := by
  have h0 : t.syn.remainingCycles = 0 := by rw [h.cycles, sub_self]
  exact (exec_synTick_eq_synFinish (h.admitted hs) h0).trans (exec_synFinish (h.admitted hs) h0)

/-- The starting tick and `k` more lead to the closed form, by induction on `k`. -/
theorem ReadyToSound.runOn_tone (hs : ReadyToSound e s) (hk : k ≤ s.cfg.toneTicks) :
    ∃ t, runOn (toneCmd (k + 1)) s = .next t ∧ InTone e k s t := by
  induction k with
  | zero => exact ⟨_, runOn_toneCmd_succ (runOn_nil s) hs.begun hs.exec_start, .start e s⟩
  | succ k ih =>
    obtain ⟨t, hrun, ht⟩ := ih (Nat.le_of_succ_le hk)
    obtain ⟨htick, hnext⟩ := ht.exec_generate hs hk
    exact ⟨_, runOn_toneCmd_succ hrun (ht.begun hs) htick, hnext⟩

/-- Settles O38: the closed form is the induction's own invariant. -/
theorem toneFollowsItsClosedForm : Obligations.ToneFollowsItsClosedForm := by
  intro s e k hadm hb hneg hv he hk
  obtain ⟨t, hrun, ht⟩ := ReadyToSound.runOn_tone ⟨hadm, hb, hneg, hv, he⟩ hk
  exact ⟨t, hrun, ht.cycles, ht.highStep, ht.lowStep, ht.highPhase, ht.lowPhase, ht.started,
    ht.sampled, ht.valid, ht.digit, ht.dec, ht.context.trace⟩

/-- With `n` samples still to come, the rest of the tone writes them and then silence: induction on
`n`. -/
theorem InTone.observe_rest (h : InTone e k s t) (hs : ReadyToSound e s)
    (hn : k + n = s.cfg.toneTicks) : ∃ u, InTone e s.cfg.toneTicks s u ∧
      observe (List.replicate (n + 1) sampleWord) t = some (afterFinish u,
        (List.range' k n).map (sampleOf s.cfg e) ++ [s.cfg.silenceLevel]) := by
  induction n generalizing k t with
  | zero =>
    obtain rfl : k = s.cfg.toneTicks := hn
    have htick := (perform_sampleWord (h.begun hs)).trans (h.exec_finish hs)
    have hobserve := observe_cons (ws := []) htick rfl
    rw [if_pos (afterFinish_levelWr t), afterFinish_level, h.context.cfg] at hobserve
    exact ⟨t, h, hobserve⟩
  | succ n ih =>
    obtain ⟨htick, hnext⟩ := h.exec_generate hs (by omega)
    obtain ⟨u, hu, hrest⟩ := ih hnext (by omega)
    obtain ⟨hwr, hlevel⟩ := hnext.sampled k.succ_pos
    have hobserve := observe_cons ((perform_sampleWord (h.begun hs)).trans htick) hrest
    rw [if_pos hwr, hlevel] at hobserve
    exact ⟨u, hu, hobserve⟩

/-- The starting tick writes no level; the `TONE_TICKS + 1` after it write the tone. -/
theorem ReadyToSound.observe_tone (hs : ReadyToSound e s) :
    ∃ u, InTone e s.cfg.toneTicks s u ∧
      observe (List.replicate (s.cfg.toneTicks + 2) sampleWord) s = some (afterFinish u,
        (List.range s.cfg.toneTicks).map (sampleOf s.cfg e) ++ [s.cfg.silenceLevel]) := by
  obtain ⟨u, hu, hrest⟩ := (InTone.start e s).observe_rest hs (Nat.zero_add _)
  rw [← List.range_eq_range'] at hrest
  exact ⟨u, hu, observe_cons ((perform_sampleWord hs.begun).trans hs.exec_start) hrest⟩

/-- Settles O39: the tone's phases are those of the closed form, and its levels are `observe_tone`. -/
theorem toneWritesItsSamplesThenSilence : Obligations.ToneWritesItsSamplesThenSilence := by
  intro s e hadm hb hneg hv he
  have hs : ReadyToSound e s := ⟨hadm, hb, hneg, hv, he⟩
  refine ⟨fun k hk => ?_, ?_⟩
  · obtain ⟨t, hrun, ht⟩ := hs.runOn_tone hk.le
    exact ⟨t, hrun, ht.highPhase, ht.lowPhase⟩
  · obtain ⟨u, hu, hobserve⟩ := hs.observe_tone
    have hlevel : (afterFinish u).syn.level = s.cfg.silenceLevel := by
      rw [afterFinish_level, hu.context.cfg]
    exact ⟨afterFinish u, hobserve, rfl, rfl, hlevel, hu.valid, hu.dec, hu.context.trace⟩

end Sys2Proof.Machine
end

section
/-! SUPPORT. The step and the input word it consumes (43_core_cycle.md R220, R226), and the operations
that leave every register or reset every one (R221, R222). -/

namespace Sys2Proof.Machine

variable {s t : State} {w : InputWord} {rest : List InputWord}

/-! ### The step -/

theorem step_of_trace_nil (h : s.trace = []) : step s = .refused .traceEnded := by
  simp only [step, h]

theorem step_of_trace_cons (h : s.trace = w :: rest) :
    step s = perform (decode w) (withTrace rest s) := by
  simp only [step, h, withTrace]

/-- In a run that reset has begun or begins, the step is the operation of the next word. -/
theorem step_of_mayPerform (h : s.trace = w :: rest)
    (hmay : s.begun = true ∨ decode w = .cycReset) :
    step s = exec (decode w) (withTrace rest s) := by
  rw [step_of_trace_cons h]
  rcases hmay with hb | hreset
  · exact perform_of_begun hb
  · rw [hreset, perform_reset]

/-- Settles O5, by the words left and whether the run has begun. -/
theorem stepRunsTheNextWord : Obligations.StepRunsTheNextWord := by
  refine fun s => ⟨step_of_trace_nil, fun w rest h => ⟨step_of_mayPerform h, fun hb hw => ?_⟩⟩
  rw [step_of_trace_cons h]
  exact perform_beforeReset hb hw

/-- Settles O6: the word that was placed is the next one, and consuming it gives the state back. -/
theorem placedTableWordRuns : Obligations.PlacedTableWordRuns := by
  intro s nbits w i hdecode hmay
  unfold decodeTableWord at hdecode
  unfold State.withFetchWord
  cases hraw : rawWord nbits w with
  | error e => simp [hraw] at hdecode
  | ok word =>
    obtain rfl : decode word = i := by simpa [hraw] using hdecode
    exact step_of_mayPerform (s := { s with trace := word :: s.trace }) rfl hmay

/-- Settles O59: the next word of the assembled block is a command word, and every command word's cycle
completes in the ranges. -/
theorem stepCompletesUnderTheInvariant : Obligations.StepCompletesUnderTheInvariant := by
  intro s h hne
  obtain ⟨w, rest, htrace⟩ := List.exists_cons_of_ne_nil hne
  obtain ⟨cw, rfl⟩ := h.assembled w (htrace ▸ List.mem_cons_self ..)
  have hranges : Ranges (withTrace rest s) := ⟨h.ranges.admitted, h.ranges.slot, h.ranges.syn⟩
  obtain ⟨t, ht⟩ := exec_command_completes hranges cw
  exact ⟨t, (step_of_mayPerform htrace (.inl h.begun)).trans ht⟩

/-! ### The slot command of a cycle as an operation -/

/-- The operation of the slot command that a cycle drives (30_encoding.md R97). -/
theorem decodeSlotCommand_slotCommandOf (s : State) (w : CommandWord) :
    decodeSlotCommand (slotCommandOf s w) =
      if pushes s w then
        if takes s w then .slotPushTake (pushedDigit s) else .slotPush (pushedDigit s)
      else if takes s w then .slotTake else .slotHold := by
  rw [slotCommandOf, decodeSlotCommand_slotCommandWord]
  cases pushes s w <;> rfl

/-! ### Reset and the quiet operations -/

/-- Settles O8: the reset values are the definition's own, and `rst` alone selects the operation. -/
theorem cycResetGivesTheResetRegisters : Obligations.CycResetGivesTheResetRegisters :=
  ⟨fun _ hadm => exec_cycReset_next_iff.mpr ⟨hadm, rfl⟩, decodeCommand_commandWord true⟩

/-- Settles O9: each of the three only opens its cycle, and a cycle without ticks asks nothing of the
slot. -/
theorem quietOperationsChangeNoRegister : Obligations.QuietOperationsChangeNoRegister := by
  refine ⟨decodeCommand_commandWord false false false, decodeSlotCommand_slotCommandWord false false,
    rfl, fun s m p => ?_, fun i s hi hadm => ⟨?_, rfl⟩⟩
  · rw [decodeSlotCommand_slotCommandOf, pushes_of_tickLo_false tickLoBit_commandWord,
      takes_of_tickHi_false tickHiBit_commandWord]
    rfl
  · rw [exec_of_admitted hadm]
    rcases hi with rfl | rfl | rfl <;> rfl

end Sys2Proof.Machine
end

section
/-! SUPPORT. A cycle with one tick or with both (43_core_cycle.md R223 to R225): the poll and the sample
tick as cycles of their own, and both in one cycle in the order of the configuration. -/

namespace Sys2Proof.Machine

variable {s t u : State} {w : CommandWord} {m p : Line}

/-! ### One tick -/

theorem exec_cycDec (hadm : s.cfg.admitted = true) :
    exec (.cycDec m p) s = .next (afterPoll m p (openCycle s)) :=
  exec_cycDec_next_iff.mpr ⟨hadm, rfl⟩

/-- Settles O10: the poll pushes exactly where its part is `DEC.REST.EMIT`, and its slot is then that of
the push. -/
theorem cycDecPerformsOnePoll : Obligations.CycDecPerformsOnePoll := by
  refine ⟨decodeCommand_commandWord false true false, fun s m p hadm => ⟨_, exec_cycDec hadm,
    exec_decTick hadm, rfl, rfl, rfl, rfl, fun hemit => ?_, fun hother => ?_⟩⟩
  · obtain ⟨d, hd, hdecimal, hslot⟩ := slotAfterPoll_of_restEmit hemit
    have hpush : pushedDigit s = d := by simp [pushedDigit, hd]
    refine ⟨d, _, hd, ?_, exec_slotPush_next_iff.mpr ⟨hadm, slotPush_eq_of_decimal hdecimal⟩, hslot⟩
    rw [decodeSlotCommand_slotCommandOf, takes_of_tickHi_false tickHiBit_commandWord, hpush]
    simp [pushes, hemit]
  · refine ⟨?_, slotAfterPoll_of_ne_restEmit hother⟩
    rw [decodeSlotCommand_slotCommandOf, takes_of_tickHi_false tickHiBit_commandWord]
    simp [pushes, hother]

/-- The slot command of a cycle with the sample tick alone. -/
theorem decodeSlotCommand_of_sampleTick (s : State) (m p : Line) :
    decodeSlotCommand (slotCommandOf s (commandWord false false true m p)) =
      if selectTick s.syn.remainingCycles s.slot.valid = .start then .slotTake else .slotHold := by
  rw [decodeSlotCommand_slotCommandOf, pushes_of_tickLo_false tickLoBit_commandWord,
    takes_of_tick rstBit_commandWord tickHiBit_commandWord,
    pendingAtTick_of_tickLo_false s tickLoBit_commandWord]
  simp

theorem selectTick_eq_start_iff {r : Int} {v : Line} :
    selectTick r v = .start ↔ r < 0 ∧ v = true := by
  rcases lt_trichotomy r 0 with hneg | h0 | hpos
  · rw [selectTick_idle hneg]; cases v <;> simp [hneg]
  · rw [selectTick_finish h0]; simp [h0]
  · simp [selectTick_gen hpos, hpos.le]

theorem selectTick_strobe_iff {r : Int} {v : Line} :
    (selectTick r v = .finish ∨ selectTick r v = .gen) ↔ 0 ≤ r := by
  rcases lt_trichotomy r 0 with hneg | h0 | hpos
  · rw [selectTick_idle hneg]; cases v <;> simp [hneg]
  · rw [selectTick_finish h0]; simp [h0]
  · simp [selectTick_gen hpos, hpos.le]

theorem exec_cycSyn_completes (hadm : s.cfg.admitted = true) (ht : TablesInRange s) :
    ∃ t, exec .cycSyn s = .next t := by
  obtain ⟨t, htick⟩ := sampleTick_completes (s := openCycle s) hadm ht.openCycle
  exact ⟨t, exec_cycSyn_next_iff.mpr ⟨hadm, htick⟩⟩

/-- A starting tick leaves the slot and the outputs of `SLOT.TAKE`. -/
theorem exec_slotTake_of_start (h : exec .cycSyn s = .next t) (hneg : s.syn.remainingCycles < 0)
    (hv : s.slot.valid = true) : ∃ u, exec .slotTake s = .next u ∧ t.slot = u.slot ∧ t.out = u.out := by
  obtain ⟨hadm, htick⟩ := exec_next_iff_event.mp
    ((exec_synTick_eq_synStart (exec_next_iff_event.mp h).1 hneg hv).symm.trans h)
  obtain ⟨-, -, hs, ls, -, rfl⟩ := startTone_next_iff.mp htick
  refine ⟨_, exec_slotTake hadm, ?_, rfl⟩
  rw [faultAfterTake_pending hv]
  rfl

/-- Settles O11: the take bit of the slot command is the part `SYN.START`, and the strobe is that of a
tone in progress or finishing. -/
theorem cycSynPerformsOneSampleTick : Obligations.CycSynPerformsOneSampleTick := by
  refine ⟨decodeCommand_commandWord false false true, fun s hadm htables => ?_⟩
  obtain ⟨t, ht⟩ := exec_cycSyn_completes hadm htables
  have htick := (exec_cycSyn_next_iff.mp ht).2
  obtain ⟨hdec, hcfg, htrace, -⟩ := sampleTick_frame htick
  refine ⟨t, ht, ht, hdec, hcfg, htrace, fun hstart => ⟨fun m p => ?_, ?_⟩,
    fun hother => ⟨fun m p => ?_, ?_⟩, ?_⟩
  · rw [decodeSlotCommand_of_sampleTick, if_pos hstart]
  · obtain ⟨hneg, hv⟩ := selectTick_eq_start_iff.mp hstart
    exact exec_slotTake_of_start ht hneg hv
  · rw [decodeSlotCommand_of_sampleTick, if_neg hother]
  · have hagrees := slotAgrees_sampleTick htick
    rw [openCycle_syn, openCycle_slot, beq_false_of_ne hother] at hagrees
    exact ⟨hagrees.slot, hagrees.take, hagrees.takeDigit⟩
  · rw [sampleTick_levelWr htick, selectTick_strobe_iff]
    simp

/-! ### Both ticks -/

/-- Where the sample tick comes first, the cycle with both ticks is the poll after `CYC.SYN`. -/
theorem exec_cycBoth_of_cycSyn (ho : s.cfg.coincidentOrder = .synFirst)
    (h : exec .cycSyn s = .next u) : exec (.cycBoth m p) s = .next (afterPoll m p u) := by
  obtain ⟨hadm, htick⟩ := exec_cycSyn_next_iff.mp h
  exact exec_cycBoth_next_iff.mpr ⟨hadm, .inl ⟨ho, u, htick, rfl⟩⟩

/-- The tick of `CYC.SYN` with the ports of any state `r` recorded before it: it adds its strobe and what
it takes to them. -/
theorem sampleTick_withPorts (r : State) (h : sampleTick (openCycle s) = .next t) :
    sampleTick (withOut (portsShown r false none) s) =
      .next (withOut (portsShown r t.out.levelWr t.out.taken) t) := by
  rcases sampleTick_cases h with hp | hp | hp | hp
  · obtain ⟨h0, rfl⟩ := finishTone_next_iff.mp hp
    exact sampleTick_of_part .finish (finishTone_next_iff.mpr ⟨h0, rfl⟩)
  · obtain ⟨hpos, a, b, ha, hb, rfl⟩ := generate_next_iff.mp hp
    exact sampleTick_of_part .gen (generate_next_iff.mpr ⟨hpos, a, b, ha, hb, rfl⟩)
  · obtain ⟨hneg, hv, a, b, hpair, rfl⟩ := startTone_next_iff.mp hp
    exact sampleTick_of_part .start (startTone_next_iff.mpr ⟨hneg, hv, a, b, hpair, rfl⟩)
  · obtain ⟨hneg, hv, rfl⟩ := idleTick_next_iff.mp hp
    exact sampleTick_of_part .nop (idleTick_next_iff.mpr ⟨hneg, hv, rfl⟩)

/-- Where the poll comes first, the cycle with both ticks ends as `CYC.SYN` after the poll does, with
the ports of the cycle's own old state. -/
theorem exec_cycBoth_of_poll_cycSyn (ho : s.cfg.coincidentOrder = .decFirst)
    (h : exec .cycSyn (afterPoll m p (openCycle s)) = .next t) :
    exec (.cycBoth m p) s = .next (withOut (portsShown s t.out.levelWr t.out.taken) t) := by
  obtain ⟨hadm, htick⟩ := exec_cycSyn_next_iff.mp h
  exact exec_cycBoth_next_iff.mpr ⟨hadm, .inr ⟨ho, sampleTick_withPorts s htick⟩⟩

/-- A cycle with both ticks completes only where its sample tick would in a cycle of its own. -/
theorem exec_cycSyn_of_cycBoth (h : exec (.cycBoth m p) s = .next t) :
    (s.cfg.coincidentOrder = .synFirst → ∃ u, exec .cycSyn s = .next u) ∧
      (s.cfg.coincidentOrder = .decFirst →
        ∃ u, exec .cycSyn (afterPoll m p (openCycle s)) = .next u) := by
  obtain ⟨hadm, ⟨ho, u, hu, -⟩ | ⟨ho, htick⟩⟩ := exec_cycBoth_next_iff.mp h <;> simp only [ho]
  · exact ⟨fun _ => ⟨u, exec_cycSyn_next_iff.mpr ⟨hadm, hu⟩⟩, nofun⟩
  · obtain ⟨u, hu, -⟩ := (sampleTick_sameOutcome_openCycle _).1 t htick
    exact ⟨nofun, fun _ => ⟨u, exec_cycSyn_next_iff.mpr ⟨hadm, hu⟩⟩⟩

/-- Settles O12: opening a cycle of its own for the second event changes the recorded outputs alone. -/
theorem cycBothIsTheTwoEventsInOrder : Obligations.CycBothIsTheTwoEventsInOrder := by
  refine fun s m p hadm htables => ⟨fun ho => ?_, fun ho => ?_⟩
  · obtain ⟨u, hu⟩ := exec_cycSyn_completes hadm htables
    obtain ⟨-, hcfg, htrace, -⟩ := sampleTick_frame (exec_cycSyn_next_iff.mp hu).2
    exact ⟨u, _, _, hu, exec_cycDec (hcfg ▸ hadm), exec_cycBoth_of_cycSyn ho hu, ⟨rfl, rfl, rfl⟩, rfl,
      hcfg, htrace⟩
  · obtain ⟨v, hv⟩ := exec_cycSyn_completes (s := afterPoll m p (openCycle s)) hadm
      htables.openCycle.afterPoll
    obtain ⟨-, hcfg, htrace, -⟩ := sampleTick_frame (exec_cycSyn_next_iff.mp hv).2
    exact ⟨_, v, _, exec_cycDec hadm, hv, exec_cycBoth_of_poll_cycSyn ho hv, ⟨rfl, rfl, rfl⟩, rfl,
      hcfg, htrace⟩

end Sys2Proof.Machine
end

section
/-! SUPPORT. The event view of a run (43_core_cycle.md R227): runs from blocks that agree are observed
alike, and a cycle with both ticks is observed as its two events. -/

namespace Sys2Proof.Machine

variable {s s' t u : State} {w w' : CommandWord} {ws ws' : List CommandWord} {m p : Line}

/-! ### One word of an observed run -/

/-- The level a cycle writes, if it drives the strobe. -/
def levelsWritten (t : State) : List Nat := if t.out.levelWr then [t.syn.level] else []

theorem levelsWritten_congr (hsyn : t.syn = u.syn) (hwr : t.out.levelWr = u.out.levelWr) :
    levelsWritten t = levelsWritten u := by
  simp only [levelsWritten, hsyn, hwr]

/-- An observed run with levels written before it. -/
def prependLevels (levels : List Nat) (o : Option (State × List Nat)) : Option (State × List Nat) :=
  o.map fun r => (r.1, levels ++ r.2)

theorem observe_cons_of_next (h : perform (decodeCommand w) s = .next t) :
    observe (w :: ws) s = prependLevels (levelsWritten t) (observe ws t) := by
  simp only [observe, h]
  cases observe ws t with
  | none => rfl
  | some r => cases hwr : t.out.levelWr <;> simp [prependLevels, levelsWritten, hwr]

theorem observe_cons_of_no_strobe (h : perform (decodeCommand w) s = .next t)
    (hwr : t.out.levelWr = false) : observe (w :: ws) s = observe ws t := by
  rw [observe_cons_of_next h, levelsWritten, hwr]
  cases observe ws t <;> rfl

theorem observe_cons_of_not_next (h : ∀ t, perform (decodeCommand w) s ≠ .next t) :
    observe (w :: ws) s = none := by
  unfold observe
  cases hp : perform (decodeCommand w) s with
  | next t => exact absurd hp (h t)
  | fault r => rfl
  | refused r => rfl

/-- A poll writes no level. -/
theorem observe_poll_cons (hadm : s.cfg.admitted = true) (hb : s.begun = true) :
    observe (commandWord false true false m p :: ws) s =
      observe ws (afterPoll m p (openCycle s)) := by
  refine observe_cons_of_no_strobe ?_ rfl
  rw [decodeCommand_commandWord, perform_of_begun hb]
  exact exec_cycDec hadm

/-! ### Runs observed alike -/

theorem SameBlock.symm (h : SameBlock s t) : SameBlock t s := by
  obtain ⟨⟨hslot, hdec, hsyn⟩, hcfg, hbegun⟩ := h
  exact ⟨⟨hslot.symm, hdec.symm, hsyn.symm⟩, hcfg.symm, hbegun.symm⟩

theorem SameBlock.trans (h : SameBlock s t) (h' : SameBlock t u) : SameBlock s u := by
  obtain ⟨⟨hslot, hdec, hsyn⟩, hcfg, hbegun⟩ := h
  obtain ⟨⟨hslot', hdec', hsyn'⟩, hcfg', hbegun'⟩ := h'
  exact ⟨⟨hslot.trans hslot', hdec.trans hdec', hsyn.trans hsyn'⟩, hcfg'.trans hcfg,
    hbegun'.trans hbegun⟩

theorem SameBlock.syn_eq (h : SameBlock s t) : s.syn = t.syn := by
  obtain ⟨⟨-, -, hsyn⟩, -, -⟩ := h
  exact hsyn

theorem sameBlock_withOut (o : Outputs) (s : State) : SameBlock (withOut o s) s :=
  ⟨⟨rfl, rfl, rfl⟩, rfl, rfl⟩

theorem sameBlock_afterPoll_openCycle (m p : Line) (s : State) :
    SameBlock (afterPoll m p s) (afterPoll m p (openCycle s)) :=
  ⟨⟨rfl, rfl, rfl⟩, rfl, rfl⟩

/-- Both runs are refused, or they end in blocks that agree and have written the same levels. -/
def ObservedAlike : Option (State × List Nat) → Option (State × List Nat) → Prop :=
  Option.Rel fun r r' => SameBlock r.1 r'.1 ∧ r.2 = r'.2

namespace ObservedAlike

variable {o o' o'' : Option (State × List Nat)}

theorem trans (h : ObservedAlike o o') (h' : ObservedAlike o' o'') : ObservedAlike o o'' := by
  cases h with
  | none => exact h'
  | some hr =>
    cases h' with
    | some hr' => exact .some ⟨hr.1.trans hr'.1, hr.2.trans hr'.2⟩

theorem prependLevels (levels : List Nat) (h : ObservedAlike o o') :
    ObservedAlike (prependLevels levels o) (prependLevels levels o') := by
  cases h with
  | none => exact .none
  | some hr => exact .some ⟨hr.1, congrArg (levels ++ ·) hr.2⟩

/-- Runs observed alike agree in what R227 compares. -/
theorem map_eq (h : ObservedAlike o o') :
    (o.map fun r => (r.1.slot, r.1.dec, r.1.syn, r.1.cfg, r.2)) =
      o'.map fun r => (r.1.slot, r.1.dec, r.1.syn, r.1.cfg, r.2) := by
  cases h with
  | none => rfl
  | some hr =>
    obtain ⟨⟨⟨hslot, hdec, hsyn⟩, hcfg, -⟩, hlevels⟩ := hr
    simp only [Option.map_some, hslot, hdec, hsyn, hcfg, hlevels]

/-- Two runs are observed alike where their first words are refused together, write the same levels, and
leave runs observed alike. -/
theorem cons (hcompletes : ∀ t, perform (decodeCommand w) s = .next t →
      ∃ t', perform (decodeCommand w') s' = .next t')
    (hnext : ∀ t', perform (decodeCommand w') s' = .next t' →
      ∃ t, perform (decodeCommand w) s = .next t ∧ levelsWritten t = levelsWritten t' ∧
        ObservedAlike (observe ws t) (observe ws' t')) :
    ObservedAlike (observe (w :: ws) s) (observe (w' :: ws') s') := by
  by_cases hn : ∃ t', perform (decodeCommand w') s' = .next t'
  · obtain ⟨t', ht'⟩ := hn
    obtain ⟨t, ht, hlevels, hrest⟩ := hnext t' ht'
    rw [observe_cons_of_next ht, observe_cons_of_next ht', hlevels]
    exact hrest.prependLevels _
  · rw [observe_cons_of_not_next fun t ht => hn (hcompletes t ht),
      observe_cons_of_not_next (not_exists.mp hn)]
    exact .none

/-- The same first word from the same state. -/
theorem cons_same (h : ∀ t, perform (decodeCommand w) s = .next t →
    ObservedAlike (observe ws t) (observe ws' t)) :
    ObservedAlike (observe (w :: ws) s) (observe (w :: ws') s) :=
  .cons (fun t ht => ⟨t, ht⟩) fun t ht => ⟨t, ht, rfl, h t ht⟩

end ObservedAlike

/-- Blocks that agree have runs observed alike: the strobe of a cycle depends on the block alone. -/
theorem SameBlock.observe (h : SameBlock s s') (ws : List CommandWord) :
    ObservedAlike (observe ws s) (observe ws s') := by
  induction ws generalizing s s' with
  | nil => exact .some ⟨h, rfl⟩
  | cons w ws ih =>
    refine .cons (fun t ht => ?_) fun t' ht' => ?_
    · obtain ⟨t', ht', -⟩ := h.perform_command ht
      exact ⟨t', ht'⟩
    · obtain ⟨t, ht, hsame⟩ := h.symm.perform_command ht'
      refine ⟨t, ht, levelsWritten_congr hsame.symm.syn_eq (Bool.eq_iff_iff.mpr ?_), ih hsame.symm⟩
      rw [exec_command_levelWr (perform_next_iff.mp ht).2,
        exec_command_levelWr (perform_next_iff.mp ht').2, h.syn_eq]

/-! ### The words of the event view -/

/-- `N` deleted. -/
theorem observedAlike_nop (hadm : s.cfg.admitted = true) (hb : s.begun = true)
    (hw : decodeCommand w = .cycNop)
    (h : ∀ t, perform (decodeCommand w) s = .next t → ObservedAlike (observe ws t) (observe ws' t)) :
    ObservedAlike (observe (w :: ws) s) (observe ws' s) := by
  have hnop : perform (decodeCommand w) s = .next (openCycle s) := by
    rw [hw, perform_of_begun hb]
    exact exec_cycNop_next_iff.mpr ⟨hadm, rfl⟩
  rw [observe_cons_of_no_strobe hnop rfl]
  exact (h _ hnop).trans ((sameBlock_withOut (openCycle s).out s).observe ws')

/-- `B(m,p)` as `S D(m,p)` under `SYN_FIRST`. -/
theorem observedAlike_synFirst (hb : s.begun = true) (ho : s.cfg.coincidentOrder = .synFirst)
    (hw : decodeCommand w = .cycBoth m p)
    (h : ∀ t, perform (decodeCommand w) s = .next t → ObservedAlike (observe ws t) (observe ws' t)) :
    ObservedAlike (observe (w :: ws) s)
      (observe (sampleWord :: commandWord false true false m p :: ws') s) := by
  have hboth : perform (decodeCommand w) s = exec (.cycBoth m p) s := by rw [hw, perform_of_begun hb]
  have hsyn : perform (decodeCommand sampleWord) s = exec .cycSyn s := perform_sampleWord hb
  refine .cons (fun t ht => ?_) fun u hu => ?_
  · rw [hsyn]
    exact (exec_cycSyn_of_cycBoth (hboth.symm.trans ht)).1 ho
  · rw [hsyn] at hu
    have ht := hboth.trans (exec_cycBoth_of_cycSyn ho hu)
    obtain ⟨hadm, htick⟩ := exec_cycSyn_next_iff.mp hu
    obtain ⟨-, hcfg, -⟩ := sampleTick_frame htick
    refine ⟨_, ht, rfl, ?_⟩
    rw [observe_poll_cons (hcfg ▸ hadm) ((sampleTick_begun htick).trans hb)]
    exact (h _ ht).trans ((sameBlock_afterPoll_openCycle m p u).observe ws')

/-- `B(m,p)` as `D(m,p) S` under `DEC_FIRST`. -/
theorem observedAlike_decFirst (hadm : s.cfg.admitted = true) (hb : s.begun = true)
    (ho : s.cfg.coincidentOrder = .decFirst) (hw : decodeCommand w = .cycBoth m p)
    (h : ∀ t, perform (decodeCommand w) s = .next t → ObservedAlike (observe ws t) (observe ws' t)) :
    ObservedAlike (observe (w :: ws) s)
      (observe (commandWord false true false m p :: sampleWord :: ws') s) := by
  have hboth : perform (decodeCommand w) s = exec (.cycBoth m p) s := by rw [hw, perform_of_begun hb]
  have hsyn : perform (decodeCommand sampleWord) (afterPoll m p (openCycle s)) =
      exec .cycSyn (afterPoll m p (openCycle s)) := perform_sampleWord hb
  rw [observe_poll_cons hadm hb]
  refine .cons (fun t ht => ?_) fun u hu => ?_
  · rw [hsyn]
    exact (exec_cycSyn_of_cycBoth (hboth.symm.trans ht)).2 ho
  · have ht := hboth.trans (exec_cycBoth_of_poll_cycSyn ho (hsyn.symm.trans hu))
    exact ⟨_, ht, levelsWritten_congr rfl rfl, (h _ ht).trans ((sameBlock_withOut _ u).observe ws')⟩

/-- A run and its event view are observed alike, by induction over the words. -/
theorem observedAlike_eventWords (hadm : s.cfg.admitted = true) (hb : s.begun = true)
    (ws : List CommandWord) :
    ObservedAlike (observe ws s) (observe (ws.flatMap (eventWords s.cfg)) s) := by
  induction ws generalizing s with
  | nil => exact .some ⟨⟨⟨rfl, rfl, rfl⟩, rfl, rfl⟩, rfl⟩
  | cons w ws ih =>
    have hrest (t : State) (ht : perform (decodeCommand w) s = .next t) :
        ObservedAlike (observe ws t) (observe (ws.flatMap (eventWords s.cfg)) t) := by
      have hexec := (perform_next_iff.mp ht).2
      obtain ⟨hcfg, -⟩ := exec_command_frame hexec
      rw [← hcfg]
      exact ih (hcfg ▸ hadm) (exec_command_begun hexec (.inl hb))
    rw [List.flatMap_cons]
    rcases decodeCommand_bits w with ⟨hr, -⟩ | ⟨hr, hlo, hhi, hw⟩ | ⟨hr, hlo, hhi, -⟩ |
      ⟨hr, hlo, hhi, -⟩ | ⟨hr, hlo, hhi, hw⟩
    · have hw : eventWords s.cfg w = [w] := by simp [eventWords, hr]
      exact hw ▸ .cons_same hrest
    · have hw' : eventWords s.cfg w = [] := by simp [eventWords, hr, hlo, hhi]
      exact hw' ▸ observedAlike_nop hadm hb hw hrest
    · have hw : eventWords s.cfg w = [w] := by simp [eventWords, hr, hlo, hhi]
      exact hw ▸ .cons_same hrest
    · have hw : eventWords s.cfg w = [w] := by simp [eventWords, hr, hlo, hhi]
      exact hw ▸ .cons_same hrest
    · cases ho : s.cfg.coincidentOrder with
      | synFirst =>
        have hw' : eventWords s.cfg w =
            [sampleWord, commandWord false true false (movingBit w) (pulseBit w)] := by
          simp [eventWords, hr, hlo, hhi, ho]
        exact hw' ▸ observedAlike_synFirst hb ho hw hrest
      | decFirst =>
        have hw' : eventWords s.cfg w =
            [commandWord false true false (movingBit w) (pulseBit w), sampleWord] := by
          simp [eventWords, hr, hlo, hhi, ho]
        exact hw' ▸ observedAlike_decFirst hadm hb ho hw hrest

/-- Settles O17: runs observed alike agree in all that R227 compares. -/
theorem runAgreesWithItsEventView : Obligations.RunAgreesWithItsEventView :=
  fun _ ws hadm hb => (observedAlike_eventWords hadm hb ws).map_eq

end Sys2Proof.Machine
end

section
/-! SUPPORT. The two orders of a cycle with both ticks (43_core_cycle.md R224; 70_reset_and_hazards.md
R292): the poll and the sample tick commute unless the poll pushes and the synthesizer is idle, and what
each order gives where they do not. -/

namespace Sys2Proof.Machine

variable {s t u : State} {m p : Line} {e : TonePair} {n d : Nat}

/-! ### What a sample tick neither reads nor writes -/

/-- The state with another decoder, built with another `COINCIDENT_ORDER`. -/
def withDecAndOrder (d : DecRegs) (o : CoincidentOrder) (s : State) : State :=
  { withOrder o s with dec := d }

theorem sampleTick_withDecAndOrder (d : DecRegs) (o : CoincidentOrder) (h : sampleTick s = .next t) :
    sampleTick (withDecAndOrder d o s) = .next (withDecAndOrder d o t) := by
  rcases sampleTick_cases h with hp | hp | hp | hp
  · obtain ⟨h0, rfl⟩ := finishTone_next_iff.mp hp
    exact sampleTick_of_part .finish (finishTone_next_iff.mpr ⟨h0, rfl⟩)
  · obtain ⟨hpos, a, b, ha, hb, rfl⟩ := generate_next_iff.mp hp
    exact sampleTick_of_part .gen (generate_next_iff.mpr ⟨hpos, a, b, ha, hb, rfl⟩)
  · obtain ⟨hneg, hv, a, b, hpair, rfl⟩ := startTone_next_iff.mp hp
    exact sampleTick_of_part .start (startTone_next_iff.mpr ⟨hneg, hv, a, b, hpair, rfl⟩)
  · obtain ⟨hneg, hv, rfl⟩ := idleTick_next_iff.mp hp
    exact sampleTick_of_part .nop (idleTick_next_iff.mpr ⟨hneg, hv, rfl⟩)

theorem exec_cycSyn_withOrder (o : CoincidentOrder) (h : exec .cycSyn s = .next t) :
    exec .cycSyn (withOrder o s) = .next (withOrder o t) := by
  obtain ⟨hadm, htick⟩ := exec_cycSyn_next_iff.mp h
  obtain ⟨hdec, -⟩ := sampleTick_frame htick
  have ht : withDecAndOrder s.dec o t = withOrder o t := by rw [← openCycle_dec s, ← hdec]; rfl
  exact exec_cycSyn_next_iff.mpr
    ⟨hadm, (sampleTick_withDecAndOrder s.dec o htick).trans (congrArg _ ht)⟩

/-! ### Where the two events commute -/

theorem slotAfterPoll_congr (hslot : t.slot = s.slot) (hdec : t.dec = s.dec) :
    slotAfterPoll m t = slotAfterPoll m s := by
  simp only [slotAfterPoll, hslot, hdec]

/-- A push before the sample tick leaves the slot as one after it, unless the tick reads the slot: an
idle synthesizer. -/
theorem sampleTick_slotAfterPoll (h : sampleTick s = .next t)
    (hcase : ¬ (selectPoll s.dec m p = .restEmit ∧ s.syn.remainingCycles < 0)) :
    sampleTick (withSlot (slotAfterPoll m s) s) = .next (withSlot (slotAfterPoll m t) t) := by
  obtain ⟨hdec, -⟩ := sampleTick_frame h
  by_cases hemit : selectPoll s.dec m p = .restEmit
  · have h0 : 0 ≤ s.syn.remainingCycles := not_lt.mp fun hneg => hcase ⟨hemit, hneg⟩
    obtain ⟨hother, hslot⟩ := sampleTick_withSlot (slotAfterPoll m s) h0 h
    rw [slotAfterPoll_congr hslot hdec]
    exact hother
  · rw [slotAfterPoll_of_ne_restEmit hemit, slotAfterPoll_of_ne_restEmit (s := t) (hdec ▸ hemit)]
    exact h

/-- A poll before the sample tick ends as one after it. -/
theorem sampleTick_afterPoll (o : CoincidentOrder) (h : sampleTick s = .next t)
    (hcase : ¬ (selectPoll s.dec m p = .restEmit ∧ s.syn.remainingCycles < 0)) :
    sampleTick (afterPoll m p (withOrder o s)) = .next (afterPoll m p (withOrder o t)) := by
  obtain ⟨hdec, -⟩ := sampleTick_frame h
  have hother := sampleTick_withDecAndOrder (afterPoll m p s).dec o (sampleTick_slotAfterPoll h hcase)
  have ht : withDecAndOrder (afterPoll m p s).dec o (withSlot (slotAfterPoll m t) t) =
      afterPoll m p (withOrder o t) := by rw [← afterPoll_dec_congr hdec]; rfl
  exact hother.trans (congrArg _ ht)

/-- Settles O13: the order is not read by the sample tick, and the two events commute. -/
theorem ordersAgreeUnlessAPushMeetsIdle : Obligations.OrdersAgreeUnlessAPushMeetsIdle := by
  intro s m p hadm htables hcase
  obtain ⟨t, ht⟩ := exec_cycSyn_completes hadm htables
  have htick := (exec_cycSyn_next_iff.mp ht).2
  exact ⟨_, _, exec_cycBoth_of_cycSyn rfl (exec_cycSyn_withOrder .synFirst ht),
    exec_cycBoth_next_iff.mpr ⟨hadm, .inr ⟨rfl, sampleTick_afterPoll .decFirst htick hcase⟩⟩,
    ⟨rfl, rfl, rfl⟩, rfl⟩

/-! ### Where a push meets an idle synthesizer -/

theorem digitOfPulses_lt (h : digitOfPulses n = some d) : d < 10 := by
  unfold digitOfPulses at h
  split_ifs at h <;> obtain rfl := Option.some.inj h <;> omega

/-- A pushed digit fits its 4-bit code. -/
theorem toNat_digitOfPulses (h : digitOfPulses n = some d) : (BitVec.ofNat 4 d).toNat = d := by
  have hlt := digitOfPulses_lt h
  rw [BitVec.toNat_ofNat]
  omega

/-- A poll at rest pushes the digit of the count. -/
theorem slotAfterPoll_rest (h : digitOfPulses s.dec.pulseCount.toNat = some d) :
    slotAfterPoll true s = { s.slot with valid := true, digit := BitVec.ofNat 4 d } := by
  have hlt := s.dec.pulseCount.isLt
  have hrom := romPc2Digit_of_pulses (c := s.dec.pulseCount) (n := s.dec.pulseCount.toNat) (by omega)
  rw [h] at hrom
  simp [slotAfterPoll, hrom]

theorem exec_cycSyn_start (hadm : s.cfg.admitted = true) (hneg : s.syn.remainingCycles < 0)
    (hv : s.slot.valid = true) (he : s.cfg.digitFreq[s.slot.digit.toNat]? = some e) :
    exec .cycSyn s = .next (afterStart e s) :=
  (exec_synTick_eq_synStart hadm hneg hv).trans (exec_synStart hadm hneg hv he)

theorem exec_cycSyn_idle (hadm : s.cfg.admitted = true) (hneg : s.syn.remainingCycles < 0)
    (hv : s.slot.valid = false) : exec .cycSyn s = .next (openCycle s) :=
  (exec_synTick_eq_synNop hadm hneg hv).trans (exec_synNop hadm hneg hv)

theorem digitFreq_of_pulses {c : Config} (hadm : c.admitted = true)
    (h : digitOfPulses n = some d) : ∃ e, c.digitFreq[d]? = some e := by
  have hcode := toNat_digitOfPulses h
  have hlt := digitOfPulses_lt h
  obtain ⟨e, he⟩ := digitFreq_entry (d := BitVec.ofNat 4 d) c hadm (by omega)
  exact ⟨e, hcode ▸ he⟩

/-- Under `DEC_FIRST` the digit that the poll pushes is taken and its tone started in the same cycle. -/
theorem exec_cycBoth_push_start (hadm : s.cfg.admitted = true)
    (ho : s.cfg.coincidentOrder = .decFirst) (hneg : s.syn.remainingCycles < 0)
    (hdigit : digitOfPulses s.dec.pulseCount.toNat = some d) (he : s.cfg.digitFreq[d]? = some e) :
    exec (.cycBoth true p) s = .next (withOut (portsShown s false (some (BitVec.ofNat 4 d)))
      (afterStart e (afterPoll true p (openCycle s)))) := by
  have hslot : (afterPoll true p (openCycle s)).slot =
      { s.slot with valid := true, digit := BitVec.ofNat 4 d } :=
    slotAfterPoll_rest (s := openCycle s) hdigit
  have hstart : exec .cycSyn (afterPoll true p (openCycle s)) = _ :=
    exec_cycSyn_start (e := e) hadm hneg (by rw [hslot])
      (by rw [hslot, toNat_digitOfPulses hdigit]; exact he)
  have htaken : (afterStart e (afterPoll true p (openCycle s))).out.taken =
      some (BitVec.ofNat 4 d) := by
    change some (afterPoll true p (openCycle s)).slot.digit = _
    rw [hslot]
  rw [exec_cycBoth_of_poll_cycSyn ho hstart, htaken]
  rfl

/-- Settles O14: under `SYN_FIRST` the tick sees the old slot, under `DEC_FIRST` the pushed digit. -/
theorem pushMeetsAnIdleSynthesizer : Obligations.PushMeetsAnIdleSynthesizer := by
  intro s p d hadm htables hneg hdigit
  constructor
  · have hslot {u : State} (hdec : u.dec = s.dec) : slotAfterPoll true u = _ :=
      slotAfterPoll_rest (hdec ▸ hdigit)
    cases hv : s.slot.valid with
    | false =>
      have hidle : exec .cycSyn (withOrder .synFirst s) = _ := exec_cycSyn_idle hadm hneg hv
      exact ⟨_, exec_cycBoth_of_cycSyn rfl hidle, hslot rfl, rfl, nofun, fun _ => ⟨rfl, rfl⟩⟩
    | true =>
      obtain ⟨e, he⟩ := digitFreq_entry s.cfg hadm (htables.digit hneg hv)
      have hstart : exec .cycSyn (withOrder .synFirst s) = _ := exec_cycSyn_start hadm hneg hv he
      exact ⟨_, exec_cycBoth_of_cycSyn rfl hstart, hslot rfl, rfl, fun _ => ⟨e, he, rfl, rfl⟩, nofun⟩
  · obtain ⟨e, he⟩ := digitFreq_of_pulses hadm hdigit
    refine ⟨_, e, exec_cycBoth_push_start (s := withOrder .decFirst s) hadm rfl hneg hdigit he, ?_,
      rfl, he, rfl, rfl⟩
    change SlotRegs.mk false emptyDigit (afterPoll true p _).slot.fault = _
    rw [afterPoll_fault]
    rfl

end Sys2Proof.Machine
end

section
/-! SUPPORT. A dialled digit from reset to its tone and back to quiescence (43_core_cycle.md R228;
70_reset_and_hazards.md R275): the rotation writes no level and leaves the digit pending, and the tone of
42_synth.md R189 follows. -/

namespace Sys2Proof.Machine

variable {s t u : State} {w : CommandWord} {ws vs : List CommandWord} {levels : List Nat}
  {c : Config} {e : TonePair} {n d : Nat}

/-! ### Observed runs -/

/-- An observed run is a run. -/
theorem leads_of_observe (h : observe ws s = some (t, levels)) : Leads ws s t := by
  induction ws generalizing s levels with
  | nil => cases h; rfl
  | cons w ws ih =>
    by_cases hn : ∃ u, perform (decodeCommand w) s = .next u
    · obtain ⟨u, hu⟩ := hn
      rw [observe_cons_of_next hu, prependLevels, Option.map_eq_some_iff] at h
      obtain ⟨⟨v, l⟩, hrest, hv⟩ := h
      cases hv
      exact ⟨u, hu, ih hrest⟩
    · rw [observe_cons_of_not_next (not_exists.mp hn)] at h
      cases h

/-- A run without sample ticks writes no level before what follows it. -/
theorem Leads.observe_append_of_no_tick (h : Leads ws s t) (hws : ∀ w ∈ ws, tickHiBit w = false) :
    observe (ws ++ vs) s = observe vs t := by
  induction ws generalizing s with
  | nil => cases h; rfl
  | cons w ws ih =>
    obtain ⟨u, hu, hrest⟩ := h
    have hwr : u.out.levelWr = false := by
      rw [← Bool.not_eq_true, exec_command_levelWr (perform_next_iff.mp hu).2,
        hws w (List.mem_cons_self ..)]
      simp
    rw [List.cons_append, observe_cons_of_no_strobe hu hwr]
    exact ih hrest fun v hv => hws v (List.mem_cons_of_mem _ hv)

/-! ### The words of a dialled digit -/

theorem commandWords_ports (ws : List CommandWord) : commandWords (ws.map InputWord.ports) = ws := by
  induction ws with
  | nil => rfl
  | cons w ws ih => exact congrArg (w :: ·) ih

/-- The command words of `DIAL(n)`. -/
def dialWords (n : Nat) : List CommandWord :=
  (dialSamples n).map (commandWord false true false false) ++ [commandWord false true false true false]

theorem dial_eq_ports (n : Nat) : dial n = (dialWords n).map InputWord.ports := by
  rw [dial_eq_rotation, dialWords, List.map_append, List.map_map]
  rfl

theorem dial_tone_eq_ports (n k : Nat) :
    dial n ++ toneCmd k = (dialWords n ++ List.replicate k sampleWord).map InputWord.ports := by
  rw [List.map_append, ← dial_eq_ports, List.map_replicate]
  rfl

theorem tickHiBit_dialWords : ∀ w ∈ dialWords n, tickHiBit w = false := by
  intro w hw
  simp only [dialWords, List.mem_append, List.mem_map, List.mem_singleton] at hw
  rcases hw with ⟨p, -, rfl⟩ | rfl <;> exact tickHiBit_commandWord

/-! ### `DIAL(n)` from reset, and its tone -/

/-- `a` is the state that `DIAL(n)` reaches from reset, with the digit `d` of the frequencies `e`
pending. -/
structure Dialled (c : Config) (n d : Nat) (e : TonePair) (a : State) : Prop where
  leads : Leads (dialWords n) (State.resetWith c) a
  ready : ReadyToSound e a
  slot : a.slot = { valid := true, digit := BitVec.ofNat 4 d, fault := 0#2 }
  count : a.dec.pulseCount = 0#4
  cfg : a.cfg = c

theorem exists_dialled (hadm : c.admitted = true) (hdigit : digitOfPulses n = some d)
    (he : c.digitFreq[d]? = some e) : ∃ a, Dialled c n d e a := by
  obtain ⟨a, hrun, hcount, hslot, hsyn, hcfg, -⟩ :=
    runOn_rotation (s := State.resetWith c) hadm rfl rfl (dialSamples n) false
  rw [← dial_eq_rotation, dial_eq_ports] at hrun
  rw [risingEdges_dialSamples, slotAfterRotation, hdigit] at hslot
  have hreset : Inv (State.resetWith c) := .resetWith hadm
  obtain ⟨b, hleads⟩ := hreset.leads (dialWords n)
  obtain rfl : b = a := Host.Outcome.next.inj (hleads.runOn.symm.trans hrun)
  refine ⟨b, hleads, ⟨hcfg ▸ hadm, (hleads.inv hreset).begun, ?_, ?_, ?_⟩, hslot, hcount, hcfg⟩
  · rw [hsyn]; exact Int.negSucc_lt_zero 0
  · rw [hslot]
  · rw [hslot, hcfg, toNat_digitOfPulses hdigit]; exact he

/-- The cycles after `DIAL(n)` are observed as those of the state it reaches. -/
theorem Dialled.observe {a : State} (h : Dialled c n d e a) (vs : List CommandWord) :
    observe (dialWords n ++ vs) (State.resetWith c) = observe vs a :=
  h.leads.observe_append_of_no_tick tickHiBit_dialWords

/-- Settles O40: the rotation leaves the digit pending in silence, the tone is R189's, and the invariant
holds at its end. -/
theorem dialledDigitSoundsAndTheBlockReturnsToIdle :
    Obligations.DialledDigitSoundsAndTheBlockReturnsToIdle := by
  intro c n d hadm hdigit
  obtain ⟨e, he⟩ := digitFreq_of_pulses hadm hdigit
  obtain ⟨a, ha⟩ := exists_dialled hadm hdigit he
  obtain ⟨u, hu, htone⟩ := ha.ready.observe_tone
  rw [ha.cfg, ← ha.observe] at htone
  have hstart : observe [sampleWord] a = some (afterStart e a, []) :=
    observe_cons_of_no_strobe ((perform_sampleWord ha.ready.begun).trans ha.ready.exec_start) rfl
  rw [← ha.observe] at hstart
  have hend := leads_of_observe htone
  have hinv : Inv (afterFinish u) := hend.inv (.resetWith hadm)
  refine ⟨e, a, afterStart e a, afterFinish u, he, ?_, ha.slot, ?_, ?_, ?_, ?_, ?_, ?_,
    ⟨rfl, hu.valid, ?_⟩, ?_, ?_, rfl⟩
  · rw [dial_eq_ports]; exact ha.leads.runOn
  · exact decide_eq_true ha.ready.idle
  · exact (congrArg (runOn · _) (dial_tone_eq_ports n 1)).trans (leads_of_observe hstart).runOn
  · rw [afterStart, ha.slot]; rfl
  · rw [afterStart, ha.cfg]
  · rw [dial_tone_eq_ports]; exact hend.runOn
  · rw [dial_tone_eq_ports, commandWords_ports]; exact htone
  · exact (congrArg DecRegs.pulseCount hu.dec).trans ha.count
  · change SlotRegs.mk u.slot.valid u.slot.digit u.slot.fault = _
    rw [hu.valid, hu.digit, show u.slot.fault = 0#2 from hinv.noFault]
    rfl
  · rw [afterFinish_level, hu.context.cfg, ha.cfg]

end Sys2Proof.Machine
end

section
/-! SUPPORT. What raises a fault bit and what clears one (60_exceptions.md R241 to R248): each event of
the slot sets the bit of its own illegal operand, no poll and no sample tick touches the bits, and only
the reset clears them. -/

namespace Sys2Proof.Machine

variable {s t : State} {i : Instr} {k : FaultCode} {d : Digit}

theorem State.faultSet_congr (h : t.slot.fault = s.slot.fault) : t.faultSet k = s.faultSet k := by
  rw [State.faultSet, h, ← State.faultSet]

/-! ### The bits after each event of the slot -/

/-- R246: the bit of one cause is set, that of the other kept. -/
theorem raiseFault_faultSet_iff {j : FaultCode} :
    (raiseFault j s).faultSet k = true ↔ s.faultSet k = true ∨ k = j := by
  have hbit : ∀ f : FaultBits,
      ((f ||| j.bit) &&& k.bit != 0#2) = true ↔ (f &&& k.bit != 0#2) = true ∨ k = j := by
    cases j <;> cases k <;> decide
  exact hbit s.slot.fault

/-- R243: a push raises `FAULT_BAD_DIGIT` alone, and where its code is no digit. -/
theorem slotPush_faultSet_iff :
    (slotPush d s).faultSet k = true ↔ s.faultSet k = true ∨ k = .badDigit ∧ 10 ≤ d.toNat := by
  by_cases hd : d.toNat ≤ 9
  · have hkept : (slotPush d s).slot.fault = s.slot.fault := by rw [slotPush_decimal hd]
    simp [State.faultSet_congr hkept, show ¬ 10 ≤ d.toNat by omega]
  · simp [slotPush_eq_of_reserved hd, raiseFault_faultSet_iff, show 10 ≤ d.toNat by omega]

theorem faultIfEmpty_faultSet_iff : (faultIfEmpty s).faultSet k = true ↔
    s.faultSet k = true ∨ k = .emptyTake ∧ s.slot.valid = false := by
  unfold faultIfEmpty
  split
  next hv => simp [hv]
  next hv => simp [hv, raiseFault_faultSet_iff]

/-- R242: a take raises `FAULT_EMPTY_TAKE` alone, and where the slot is empty. -/
theorem slotTake_faultSet_iff : (slotTake s).faultSet k = true ↔
    s.faultSet k = true ∨ k = .emptyTake ∧ s.slot.valid = false :=
  faultIfEmpty_faultSet_iff

/-- A push never empties the slot. -/
theorem slotPush_valid_of_valid (h : s.slot.valid = true) : (slotPush d s).slot.valid = true := by
  unfold slotPush
  split
  · rfl
  · exact h

/-- In either order a push with a take raises what its two events raise; a push before the take leaves
an empty slot only where it found one. -/
theorem faultSet_of_slotPushTake (h : (slotPushTake d s).faultSet k = true) :
    s.faultSet k = true ∨ k = .emptyTake ∧ s.slot.valid = false ∨
      k = .badDigit ∧ 10 ≤ d.toNat := by
  unfold slotPushTake at h
  split at h
  · rwa [slotPush_faultSet_iff, slotTake_faultSet_iff, or_assoc] at h
  · have hempty (hv : (slotPush d s).slot.valid = false) : s.slot.valid = false :=
      Bool.eq_false_of_not_eq_true fun hs => by simp [slotPush_valid_of_valid hs] at hv
    rw [slotTake_faultSet_iff, slotPush_faultSet_iff] at h
    rcases h with (hset | hdigit) | ⟨hk, hv⟩
    · exact .inl hset
    · exact .inr (.inr hdigit)
    · exact .inr (.inl ⟨hk, hempty hv⟩)

/-! ### Nothing but the reset clears a bit -/

/-- Every fault bit set before is set after. -/
def FaultsKept (s t : State) : Prop := ∀ k, s.faultSet k = true → t.faultSet k = true

theorem FaultsKept.of_fault (h : t.slot.fault = s.slot.fault) : FaultsKept s t :=
  fun _ hset => (State.faultSet_congr h).trans hset

theorem faultsKept_keptByParts : KeptByParts FaultsKept where
  refl _ := .of_fault rfl
  trans hst htu k hset := htu k (hst k hset)
  sampleLines _ _ _ := .of_fault rfl
  setPulseCount _ _ := .of_fault rfl
  slotPush _ _ _ hset := slotPush_faultSet_iff.mpr (.inl hset)
  slotTake _ _ hset := slotTake_faultSet_iff.mpr (.inl hset)
  tickPart a _ _ h := .of_fault (sampleTick_fault (sampleTick_of_part a h))

/-- Settles O46: the bits are kept by every part of an event, and opening the cycle leaves them. -/
theorem faultBitsAreSticky : Obligations.FaultBitsAreSticky := by
  intro i s t k hi h hset
  exact faultsKept_keptByParts.exec hi h k hset

/-! ### Nothing but a slot operation sets a bit -/

theorem DecoderWrites.fault (h : DecoderWrites s t) : t.slot.fault = s.slot.fault := by
  obtain ⟨-, hslot | ⟨_, -, hslot⟩⟩ := h <;> rw [hslot]

theorem SynthesizerWrites.fault (h : SynthesizerWrites s t) : t.slot.fault = s.slot.fault := by
  obtain ⟨-, hslot | ⟨-, hslot⟩⟩ := h <;> rw [hslot]

theorem poll_fault {m p : Line} (h : poll m p s = .next t) : t.slot.fault = s.slot.fault :=
  (pollPart_decoderWrites (s := sampleLines m p s) _ h).fault

theorem bothTicks_fault {m p : Line} (h : bothTicks m p s = .next t) :
    t.slot.fault = s.slot.fault := by
  unfold bothTicks at h
  split at h <;> obtain ⟨u, hfirst, hsecond⟩ := serially_next_iff.mp h
  · exact (poll_fault hsecond).trans (sampleTick_fault hfirst)
  · exact (sampleTick_fault hsecond).trans (poll_fault hfirst)

/-- R248: the events of the decoder, of the synthesizer and of every cycle but the reset leave the
fault bits. -/
theorem event_fault (hf : i.family ≠ .slot) (hi : i ≠ .cycReset) (h : event i s = .next t) :
    t.slot.fault = s.slot.fault := by
  cases hfam : i.family with
  | slot => exact absurd hfam hf
  | dec => exact (event_decoderWrites hfam h).fault
  | syn => exact (event_synthesizerWrites hfam h).fault
  | cyc =>
    cases i with
    | cycReset => exact absurd rfl hi
    | cycNop => cases h; rfl
    | cycDec => exact poll_fault h
    | cycSyn => exact sampleTick_fault h
    | cycBoth => exact bothTicks_fault h
    | _ => cases hfam

/-- The operation is a slot operation whose operands are illegal in the way the code names (R242,
R243). -/
def IllegalOperands (i : Instr) (s : State) : FaultCode → Prop
  | .emptyTake => s.slot.valid = false ∧ (i = .slotTake ∨ ∃ d, i = .slotPushTake d)
  | .badDigit => ∃ d : Digit, 10 ≤ d.toNat ∧ (i = .slotPush d ∨ i = .slotPushTake d)

theorem faultSet_of_slot_event (hf : i.family = .slot) (h : event i s = .next t)
    (hset : t.faultSet k = true) : s.faultSet k = true ∨ IllegalOperands i s k := by
  cases i with
  | slotHold | slotHasPending => cases h; exact .inl hset
  | slotPush d =>
    cases h
    exact (slotPush_faultSet_iff.mp hset).imp_right fun ⟨hk, hd⟩ => hk ▸ ⟨d, hd, .inl rfl⟩
  | slotTake =>
    cases h
    exact (slotTake_faultSet_iff.mp hset).imp_right fun ⟨hk, hv⟩ => hk ▸ ⟨hv, .inl rfl⟩
  | slotPushTake d =>
    cases h
    rcases faultSet_of_slotPushTake hset with hs | ⟨rfl, hv⟩ | ⟨rfl, hd⟩
    · exact .inl hs
    · exact .inr ⟨hv, .inr ⟨d, rfl⟩⟩
    · exact .inr ⟨d, hd, .inr rfl⟩
  | _ => cases hf

/-- A bit set after an operation was set before it, or the operation's operands are illegal. -/
theorem faultSet_of_exec (h : exec i s = .next t) (hset : t.faultSet k = true) :
    s.faultSet k = true ∨ IllegalOperands i s k := by
  have hevent := (exec_next_iff_event.mp h).2
  by_cases hf : i.family = .slot
  · exact faultSet_of_slot_event (s := openCycle s) hf hevent hset
  by_cases hi : i = .cycReset
  · subst hi
    cases hevent
    simp [State.faultSet, SlotRegs.afterReset] at hset
  · have hkept : t.slot.fault = s.slot.fault := event_fault (s := openCycle s) hf hi hevent
    exact .inl ((State.faultSet_congr hkept).symm.trans hset)

/-- Settles O47: a bit set after was set before or has illegal operands as its cause, for both codes. -/
theorem onlySlotOperationsRaiseFaults : Obligations.OnlySlotOperationsRaiseFaults := by
  intro i s t h
  have hcause {k : FaultCode} (hclear : s.faultSet k = false) (hset : t.faultSet k = true) :
      IllegalOperands i s k :=
    (faultSet_of_exec h hset).resolve_left (Bool.not_eq_true _ ▸ hclear)
  exact ⟨hcause, hcause⟩

end Sys2Proof.Machine
end
